-- ==== Sys2Proof/Word.lean ====
section
/-! DEFINITION. Word types of the block (00_scope.md R7): a byte is 8 bits, bit 0 least significant; a nibble is 4 bits.
Everything is unsigned; addition on bytes is modulo 256, which is `BitVec` addition. -/

namespace Sys2Proof

/-- A byte (R7). -/
abbrev Byte := BitVec 8

/-- The operand of one 4-bit frame (R61): bit `i` goes to line `D(4+i)`. -/
abbrev Nibble := BitVec 4

end Sys2Proof
end

