-- ==== Sys2Proof/Syntax.lean ====
section
/-! DEFINITION. The instruction syntax: one constructor per row of `spec/opcode_table.json` (55 rows: 8 `CMD`, 1 `DATA`,
2 `NIB`, 44 `HOST`), with the operand types of 30_encoding.md R63, R72, R73 and R78. -/

namespace Sys2Proof

/-- The twelve logical output lines, named by role (10_state.md R11). -/
inductive Slot where
  | rs | en | rw | d0 | d1 | d2 | d3 | d4 | d5 | d6 | d7 | bl
  deriving DecidableEq, Repr

/-- Operand `dir` of `scroll` (R78). -/
inductive Dir where
  | left | right
  deriving DecidableEq, Repr

/-- Text direction (R19, R78). -/
inductive Layout where
  | rightToLeft | leftToRight
  deriving DecidableEq, Repr

/-- Line count: the source's tagged three-way type (R16, R78). -/
inductive LineCount where
  | oneLine | twoLines | fourLines
  deriving DecidableEq, Repr

/-- Character cell (R17, R78). -/
inductive CellSize where
  | dots5x8 | dots5x10
  deriving DecidableEq, Repr

/-- One constructor per row of the opcode table.  The first eleven are wire items (what one command, data byte or raw nibble
puts on the lines); the others are the host operations of R78.  The two levels of R3 share this one type because the table
lists both; `Instr.isHost` tells them apart. -/
inductive Instr where
  -- wire level, format CMD (R64 to R71)
  | clearDisplay
  | returnHome
  /-- `id` = left-to-right, `s` = autoscroll (R66). -/
  | entryModeSet (id s : Bool)
  /-- display, cursor, blink (R67). -/
  | displayControl (d c b : Bool)
  /-- `sc` = display moves, `rl` = right (R68). -/
  | cursorDisplayShift (sc rl : Bool)
  /-- `dl` = 8-bit, `n` and `f` the line-count and size bits (R69). -/
  | functionSet (dl n f : Bool)
  | setCgramAddr (a : BitVec 6)
  | setDdramAddr (a : BitVec 7)
  -- wire level, format DATA (R72)
  | dataWrite (d : Byte)
  -- wire level, format NIB (R73)
  | rawNibbleSync
  | rawNibbleCommit
  -- host level, configuration (R111 to R126)
  | bind (p : Slot)
  | withRw
  | withHalfBus
  | withFullBus
  | withBacklight
  | withCols (c : Byte)
  | withSize (v : CellSize)
  | withLines (v : LineCount)
  | withLayout (v : Layout)
  | withDisplay (v : Bool)
  | withCursor (v : Bool)
  | withBlink (v : Bool)
  | withAutoscroll (v : Bool)
  /-- `d` is a duration in microseconds, an unbounded natural number (D27). -/
  | withReliableInit (d : Nat)
  -- host level, initialization (R130)
  | build
  -- host level, transmission (R95, R99, R101)
  | send (b : Byte) (rs : Bool)
  | command (b : Byte)
  | write (b : Byte)
  -- host level, control (R150 to R166)
  /-- `t` is the text: any finite sequence of character codes, natural numbers (R164). -/
  | print (t : List Nat)
  | clear
  | home
  | setPosition (col row : Byte)
  | scroll (dir : Dir) (n : Byte)
  | displayOn
  | displayOff
  | cursorOn
  | cursorOff
  | blinkOn
  | blinkOff
  | autoscrollOn
  | autoscrollOff
  | setLayout (v : Layout)
  /-- `g` is the glyph, row 0 first; well formed when it has exactly 8 rows (R78, R163). -/
  | setCharacter (k : Byte) (g : List Byte)
  | backlightOn
  | backlightOff
  -- host level, accessors (R169 to R177)
  | getDisplay
  | getCursor
  | getBlink
  | getAutoscroll
  | getLayout
  | lines
  | size
  | busWidth
  | error
  deriving DecidableEq, Repr

end Sys2Proof
end

