-- ==== Sys2Proof/Config.lean ====
section
/-! DEFINITION. The implementation parameters of 00_scope.md R6.  A parameter the spec gives a value has that value here; a
parameter the spec marks OPEN has no value: it is a sum of the bound the spec states and an opaque number, so that a proof
knows the stated constraint and nothing else (assumption 2). -/

namespace Sys2Proof.Config

/-- `COLS_DEFAULT` (R6, R30). -/
def colsDefault : Byte := 16

/-- `COLS_MAX` (R6, R115). -/
def colsMax : Byte := 31

/-- `N_RELIABLE` (R6, R131): the default of "3, configurable".  The count itself is a construction parameter, held in the state's
`repeats` (assumption 3). -/
def nReliable : Nat := 3

/-- `BOUND0` (R6, R30; assumption 3). -/
def bound0 : List Slot := [.rs, .en]

/-- `FUNC0`, `CTRL0`, `MODE0` (R6, R30; assumption 3). -/
def func0 : Byte := 0x00
def ctrl0 : Byte := 0x04
def mode0 : Byte := 0x02

/-- How far `T_POWERUP` lies above its bound of 40000 microseconds; free. -/
opaque powerupMargin : Nat
/-- How far `T_INIT_LONG` lies above its bound of 4500 microseconds; free. -/
opaque initLongMargin : Nat
/-- How far `T_INIT_SHORT` lies above its bound of 150 microseconds; free. -/
opaque initShortMargin : Nat
/-- Where `T_CMD` lies in its range; free. -/
opaque cmdMargin : Nat
/-- How far `T_CHR` lies above `T_CMD + 1`; free. -/
opaque chrMargin : Nat

/-- `T_POWERUP >= 40000` (R6, R132). -/
@[irreducible] def tPowerup : Nat := 40000 + powerupMargin
/-- `T_INIT_LONG >= 4500` (R6, R134). -/
@[irreducible] def tInitLong : Nat := 4500 + initLongMargin
/-- `T_INIT_SHORT >= 150` (R6, R134). -/
@[irreducible] def tInitShort : Nat := 150 + initShortMargin
/-- `T_CMD`, "in the low single-digit milliseconds" (R6, R234).  DEDUCED: a single-digit number of milliseconds is from 1000 to
9999 microseconds; "low" is made no number (assumption 2). -/
@[irreducible] def tCmd : Nat := 1000 + cmdMargin % 9000
/-- `T_CHR > T_CMD` (R6, R98). -/
@[irreducible] def tChr : Nat := tCmd + 1 + chrMargin

/-- The argument of a `Wait` event, kept SYMBOLIC: "the model records `Wait(n)` with `n` symbolic and never compares, adds or
subtracts durations" (R234; assumption 2).  `us n` is a duration the host gave as a number of microseconds. -/
inductive Duration where
  | powerup | initLong | initShort | cmd | chr
  | us (n : Nat)
  deriving DecidableEq, Repr

/-- The number of microseconds a duration stands for (R9, R200).  No operation of the machine uses it. -/
def Duration.micros : Duration → Nat
  | .powerup => tPowerup
  | .initLong => tInitLong
  | .initShort => tInitShort
  | .cmd => tCmd
  | .chr => tChr
  | .us n => n

end Sys2Proof.Config
end

