-- ==== Sys2Proof/Machine/State.lean ====
section
/-! DEFINITION. The complete state of the block (10_state.md R10), as plain data, and the state after reset (R30).

The first ten fields are the spec's whole state tuple.  `repeats` is the parameter N_RELIABLE of this construction (R6), in State
only because `step` has no other argument; nothing writes it.  The last three are the model's own: `pending` is the host side of R2(a)
(the operations requested and not yet run), `trace` and `answers` are the two outputs (the events of R9, and the values that
accessors return, R168), kept for observation only; no operation reads them back (R27). -/

namespace Sys2Proof.Machine

/-- A driven level (R7): `L` or `H`.  The spec's third value `U`, "no value", is `none` of `Option Level` (R13). -/
inductive Level where
  | low | high
  deriving DecidableEq, Repr

/-- One value per slot of the Pin Slot Set (R11). -/
structure PerSlot (α : Type) where
  rs : α
  en : α
  rw : α
  d0 : α
  d1 : α
  d2 : α
  d3 : α
  d4 : α
  d5 : α
  d6 : α
  d7 : α
  bl : α
  deriving DecidableEq, Repr

/-- The row offset table (R22): one DDRAM base address per supported row. -/
structure RowOffsets where
  row0 : Byte
  row1 : Byte
  row2 : Byte
  row3 : Byte
  deriving DecidableEq, Repr

/-- The life-cycle phase (R24). -/
inductive Phase where
  | cfg | rdy
  deriving DecidableEq, Repr

/-- The sticky error code (R23, R190): 14 values.  `noError` is the spec's `None`. -/
inductive ErrorCode where
  | noError
  | missingPin (p : Slot)
  | invalidBus
  deriving DecidableEq, Repr

/-- The two kinds of event of the output trace (R9). -/
inductive Event where
  | drive (p : Slot) (lv : Level)
  | wait (d : Config.Duration)
  deriving DecidableEq, Repr

/-- The value an accessor returns to the host (R168 to R177). -/
inductive Answer where
  | bool (v : Bool)
  | layout (v : Layout)
  | lines (v : LineCount)
  | size (v : CellSize)
  /-- 4 or 8. -/
  | width (v : Nat)
  | error (v : ErrorCode)
  deriving DecidableEq, Repr

/-- The machine's state. -/
structure State where
  /-- `phase` (R24). -/
  phase : Phase
  /-- `bound[s]` (R12). -/
  bound : PerSlot Bool
  /-- `level[s]` (R13); `none` is `U`. -/
  level : PerSlot (Option Level)
  /-- `func` (R14 to R17). -/
  func : Byte
  /-- `ctrl` (R18). -/
  ctrl : Byte
  /-- `mode` (R19). -/
  mode : Byte
  /-- `cols` (R21). -/
  cols : Byte
  /-- `offsets[0..3]` (R22). -/
  offsets : RowOffsets
  /-- `err` (R23). -/
  err : ErrorCode
  /-- `reliable` (R25): the delay of a requested reliable init, in microseconds. -/
  reliable : Option Nat
  /-- The parameter `N_RELIABLE` of this construction (R6, R131): fixed at construction, written by no operation (assumption 3). -/
  repeats : Nat
  /-- The model's own: operations the host has issued and the block has not yet run, oldest first (R2, R51; assumption 1). -/
  pending : List Instr
  /-- The model's own: the output trace since reset, oldest event first (R9, R27; assumption 4). -/
  trace : List Event
  /-- The model's own: the values returned by accessors since reset, oldest first (R168; assumption 4). -/
  answers : List Answer
  deriving DecidableEq, Repr

/-- Why a step can fault: NEVER.  "There is no other fault" (60_exceptions.md R203): the two misconfigurations are recorded in
`err` and the operation goes on (R193, R194), and there is no stuck state.  So the type has no constructor; nothing raises it. -/
inductive Fault where
  deriving DecidableEq, Repr

/-- Why a step can refuse a request. -/
inductive Refusal where
  /-- Raised by `exec` for an instruction with no meaning yet; safe.  No arm raises it. -/
  | notModelled (mnemonic : String)
  /-- Raised by every host operation issued outside its phase (60_exceptions.md R204: "return a distinct `Refused` outcome");
  safe: nothing can be proved about what such an operation does. -/
  | outOfPhase
  /-- Raised by `step` for a request that is no host operation or wire item of the spec: a glyph that has not exactly 8 rows
  (R78); safe. -/
  | malformedRequest
  deriving DecidableEq, Repr

/-- The state in which the Configuration Builder starts (R30, R215), for given parameters `BOUND0`, `FUNC0`, `CTRL0`, `MODE0`
and `N_RELIABLE` (R6). -/
def State.construct (bound0 : List Slot) (func0 ctrl0 mode0 : Byte) (nReliable : Nat) : State where
  phase := .cfg
  bound :=
    { rs := bound0.contains .rs, en := bound0.contains .en, rw := bound0.contains .rw, d0 := bound0.contains .d0
      d1 := bound0.contains .d1, d2 := bound0.contains .d2, d3 := bound0.contains .d3, d4 := bound0.contains .d4
      d5 := bound0.contains .d5, d6 := bound0.contains .d6, d7 := bound0.contains .d7, bl := bound0.contains .bl }
  level :=
    { rs := none, en := none, rw := none, d0 := none, d1 := none, d2 := none, d3 := none, d4 := none
      d5 := none, d6 := none, d7 := none, bl := none }
  func := func0
  ctrl := ctrl0
  mode := mode0
  cols := Config.colsDefault
  offsets := { row0 := 0x00, row1 := 0x40, row2 := 0x10, row3 := 0x50 }
  err := .noError
  reliable := none
  repeats := nReliable
  pending := []
  trace := []
  answers := []

/-- The machine right after reset (R30) with the default parameters of R6. -/
def State.reset : State := State.construct Config.bound0 Config.func0 Config.ctrl0 Config.mode0 Config.nReliable

end Sys2Proof.Machine
end

