-- ==== Sys2Proof/Machine/Ops.lean ====
section
/-! DEFINITION. The shared operations: reading and writing state, recording an error (the block's whole "trap entry"), the
primitives `drive`, `wait`, `pulse`, `update` (40_transmission.md R90 to R93) and the transmission `send` with its two short
forms (R95, R99, R101), and the phase check (60_exceptions.md R204). -/

namespace Sys2Proof.Machine

/-- The outcome of an instruction of this machine. -/
abbrev Result := Host.Outcome State Fault Refusal

/-! ## Per-slot storage -/

/-- The value of slot `p`. -/
def PerSlot.get {α : Type} (v : PerSlot α) : Slot → α
  | .rs => v.rs
  | .en => v.en
  | .rw => v.rw
  | .d0 => v.d0
  | .d1 => v.d1
  | .d2 => v.d2
  | .d3 => v.d3
  | .d4 => v.d4
  | .d5 => v.d5
  | .d6 => v.d6
  | .d7 => v.d7
  | .bl => v.bl

/-- `v` with slot `p` at `x`. -/
def PerSlot.set {α : Type} (v : PerSlot α) (p : Slot) (x : α) : PerSlot α :=
  match p with
  | .rs => { v with rs := x }
  | .en => { v with en := x }
  | .rw => { v with rw := x }
  | .d0 => { v with d0 := x }
  | .d1 => { v with d1 := x }
  | .d2 => { v with d2 := x }
  | .d3 => { v with d3 := x }
  | .d4 => { v with d4 := x }
  | .d5 => { v with d5 := x }
  | .d6 => { v with d6 := x }
  | .d7 => { v with d7 := x }
  | .bl => { v with bl := x }

/-- The same value in every slot. -/
def PerSlot.fill {α : Type} (x : α) : PerSlot α where
  rs := x
  en := x
  rw := x
  d0 := x
  d1 := x
  d2 := x
  d3 := x
  d4 := x
  d5 := x
  d6 := x
  d7 := x
  bl := x

/-- The row base of row `r` (R22); rows above 3 do not exist, `set_position` never asks for one (R152). -/
def RowOffsets.get (o : RowOffsets) : Nat → Byte
  | 0 => o.row0
  | 1 => o.row1
  | 2 => o.row2
  | _ => o.row3

/-! ## Updates of one state element (`x <- v`, R8) -/

/-- Append an event to the output trace (`emit e`, R8, R9). -/
def State.emit (e : Event) (s : State) : State := { s with trace := s.trace ++ [e] }
/-- The level shadow of slot `p` (R13). -/
def State.setLevel (p : Slot) (lv : Level) (s : State) : State := { s with level := s.level.set p (some lv) }
/-- The error register (R23). -/
def State.setErr (c : ErrorCode) (s : State) : State := { s with err := c }
/-- Bind one slot (R12).  Nothing unbinds. -/
def State.bindSlot (p : Slot) (s : State) : State := { s with bound := s.bound.set p true }
def State.setFunc (v : Byte) (s : State) : State := { s with func := v }
def State.setCtrl (v : Byte) (s : State) : State := { s with ctrl := v }
def State.setMode (v : Byte) (s : State) : State := { s with mode := v }
/-- The column count and the table computed from it, written together (R22, R115). -/
def State.setCols (c : Byte) (o : RowOffsets) (s : State) : State := { s with cols := c, offsets := o }
def State.setReliable (d : Nat) (s : State) : State := { s with reliable := some d }
def State.setPhase (p : Phase) (s : State) : State := { s with phase := p }
/-- Hand a value back to the host (R168). -/
def State.answer (a : Answer) (s : State) : State := { s with answers := s.answers ++ [a] }
/-- The host's remaining requests. -/
def State.setPending (l : List Instr) (s : State) : State := { s with pending := l }

/-! ## Recording an error: the block's trap entry

"`Trap entry` is a single register write.  When a cause occurs the block performs `err <- value` and nothing else: no state is
saved, no mode changes, no mask changes, control goes nowhere" (R193).  There is no return from it and no clearing (R195), so
there is no operation beside it. -/

/-- `raise c` (R8, R193): last writer wins (R196); the caller continues (R194). -/
def raise (c : ErrorCode) (s : State) : State := s.setErr c

/-! ## Framing -/

/-- `func[4]`, `DL` (R15). -/
def State.eightBit (s : State) : Bool := s.func.getLsbD 4

/-- The derived `width` (R15). -/
def State.width (s : State) : Nat := if s.eightBit then 8 else 4

/-- The derived `databus` (R32): the data slots an update cycle drives, in order, for a width. -/
def dataBus (width : Nat) : List Slot :=
  if width = 4 then [.d7, .d6, .d5, .d4] else [.d7, .d6, .d5, .d4, .d3, .d2, .d1, .d0]

/-! ## Primitives -/

/-- A boolean as a level (R7). -/
def Level.ofBool (b : Bool) : Level := if b then .high else .low

/-- `drive(s, lv)`, the guarded pin write (R90): the only place a `Drive` event is emitted and a level is written. -/
def drive (p : Slot) (lv : Level) (s : State) : State :=
  if s.bound.get p then (s.emit (.drive p lv)).setLevel p lv else raise (.missingPin p) s

/-- `wait(n)` (R91). -/
def wait (d : Config.Duration) (s : State) : State := s.emit (.wait d)

/-- `pulse()` (R92). -/
def pulse (s : State) : State := s |> drive .en .high |> drive .en .low

/-- Drive slot `p` to bit `i` of `v` (R42). -/
def driveBit (p : Slot) (v : Byte) (i : Nat) (s : State) : State := drive p (Level.ofBool (v.getLsbD i)) s

/-- The 4-bit frame of the low four bits of `v` (R61). -/
def frame4 (v : Byte) (s : State) : State :=
  s |> drive .en .low
    |> driveBit .d7 v 3 |> driveBit .d6 v 2 |> driveBit .d5 v 1 |> driveBit .d4 v 0
    |> pulse

/-- The 8-bit frame of `v` (R60). -/
def frame8 (v : Byte) (s : State) : State :=
  s |> drive .en .low
    |> driveBit .d7 v 7 |> driveBit .d6 v 6 |> driveBit .d5 v 5 |> driveBit .d4 v 4
    |> driveBit .d3 v 3 |> driveBit .d2 v 2 |> driveBit .d1 v 1 |> driveBit .d0 v 0
    |> pulse

/-- `update(v)` (R93): the width is read from `func[4]` at the moment of the call (R94). -/
def update (v : Byte) (s : State) : State := if s.width = 4 then frame4 v s else frame8 v s

/-- Force RW low if it is bound; an unbound RW is never attempted (R97, R133). -/
def forceWrite (s : State) : State := if s.bound.get .rw then drive .rw .low s else s

/-- The update cycles of one byte: the high nibble first in 4-bit mode, one cycle in 8-bit mode (R43, R95). -/
def transferByte (b : Byte) (s : State) : State :=
  if s.width = 4 then s |> update (b >>> 4) |> update (b &&& 0x0F) else update b s

/-- `send(b, rs)` (R95): `rs = false` is a command, `rs = true` is data (R96); one settle delay, before data, after a command
(R98). -/
def send (b : Byte) (rs : Bool) (s : State) : State :=
  let s := if rs then wait .chr s else s
  let s := s |> drive .rs (Level.ofBool rs) |> forceWrite |> transferByte b
  if rs then s else wait .cmd s

/-- `command(b)` (R99). -/
def command (b : Byte) (s : State) : State := send b false s

/-- `write(b)` (R101). -/
def write (b : Byte) (s : State) : State := send b true s

/-- `repeat n times` (R8). -/
def times : Nat → (State → State) → State → State
  | 0, _, s => s
  | n + 1, f, s => times n f (f s)

/-! ## The phase check -/

/-- An operation of phase `p`: run to completion there, refused with no effect elsewhere (R204). -/
def inPhase (p : Phase) (f : State → State) (s : State) : Result :=
  if s.phase = p then .next (f s) else .refused .outOfPhase

/-- A configuration operation (R125). -/
def inCfg (f : State → State) (s : State) : Result := inPhase .cfg f s

/-- A runtime operation (R178). -/
def inRdy (f : State → State) (s : State) : Result := inPhase .rdy f s

end Sys2Proof.Machine
end

