-- ==== Sys2Proof/Machine/Operands.lean ====
section
/-! DEFINITION. Operand assembly: the constants of 30_encoding.md R63 and R74, the complete list of R75, and the derived values
of the registers that operations use (10_state.md R16, R17, R22). -/

namespace Sys2Proof.Machine

/-! ## Opcodes (R63) -/

def opClear : Byte := 0x01
def opHome : Byte := 0x02
def opEntryMode : Byte := 0x04
def opDisplayControl : Byte := 0x08
def opShift : Byte := 0x10
def opFunctionSet : Byte := 0x20
def opCgram : Byte := 0x40
def opDdram : Byte := 0x80

/-! ## Flag masks (R14 to R19, R74) -/

/-- `DL`. -/
def maskWidth : Byte := 0x10
/-- `LINES`, bits 3:2. -/
def maskLines : Byte := 0x0C
/-- `SIZE`, bit 2, shared with `LINES`. -/
def maskSize : Byte := 0x04
def maskDisplay : Byte := 0x04
def maskCursor : Byte := 0x02
def maskBlink : Byte := 0x01
def maskLayout : Byte := 0x02
def maskAutoscroll : Byte := 0x01
/-- `SC = 1`, the display moves. -/
def shiftDisplay : Byte := 0x08
/-- `RL = 1`, to the right. -/
def shiftRight : Byte := 0x04

/-- Handshake nibbles (R73, R74). -/
def nibbleSync : Byte := 0x03
def nibbleCommit : Byte := 0x02

/-! ## Enumerations as register bits (R74) -/

/-- `enc(v)` of `with_lines` (R117). -/
def lineBits : LineCount → Byte
  | .oneLine => 0x00
  | .twoLines => 0x08
  | .fourLines => 0x0C

/-- The size bit (R116). -/
def sizeBits : CellSize → Byte
  | .dots5x8 => 0x00
  | .dots5x10 => maskSize

/-- The direction bit (R118). -/
def layoutBits : Layout → Byte
  | .rightToLeft => 0x00
  | .leftToRight => maskLayout

/-! ## What the registers read as -/

/-- `lines()` (R16, R169): the two-bit code `01` reads as one line. -/
def lineCountOf (func : Byte) : LineCount :=
  if func &&& maskLines = 0x0C then .fourLines
  else if func &&& maskLines = 0x08 then .twoLines
  else .oneLine

/-- The derived `numlines` (R16). -/
def numLines (func : Byte) : Nat :=
  match lineCountOf func with
  | .fourLines => 4
  | .twoLines => 2
  | .oneLine => 1

/-- `size()` (R17, R170). -/
def cellSizeOf (func : Byte) : CellSize := if func &&& maskSize ≠ 0 then .dots5x10 else .dots5x8

/-- `get_layout()` (R177). -/
def layoutOf (mode : Byte) : Layout := if mode &&& maskLayout ≠ 0 then .leftToRight else .rightToLeft

/-! ## Byte assembly (R75) -/

/-- (a) A register command: opcode OR the whole register. -/
def registerCommand (opc reg : Byte) : Byte := opc ||| reg

/-- The row that `set_position` uses: the last valid row when `row` is beyond it (R152; 90_conflicts.md C1). -/
def clampRow (func row : Byte) : Nat :=
  let limit := min (numLines func) 4
  if row.toNat < limit then row.toNat else limit - 1

/-- (b) The DDRAM address of a position, modulo 256 (R50, R152). -/
def position (func : Byte) (offsets : RowOffsets) (col row : Byte) : Byte := offsets.get (clampRow func row) + col

/-- (c) The CGRAM address command of glyph slot `k` (R70, R163). -/
def glyphCommand (k : Byte) : Byte := opCgram ||| ((k &&& 0x07) <<< 3)

/-- (d) The display shift command (R68, R153). -/
def shiftCommand : Dir → Byte
  | .left => opShift ||| shiftDisplay
  | .right => opShift ||| shiftDisplay ||| shiftRight

/-- (f) A character code as a byte: modulo 256 (R164). -/
def charByte (c : Nat) : Byte := BitVec.ofNat 8 c

/-- The saturated column count (R115). -/
def clampCols (c : Byte) : Byte := if c ≤ Config.colsMax then c else Config.colsMax

/-- The row offset table of a column count (R22, R115). -/
def offsetsFor (c : Byte) : RowOffsets where
  row0 := 0x00
  row1 := 0x40
  row2 := c
  row3 := 0x40 + c

end Sys2Proof.Machine
end

