-- ==== Sys2Proof/Machine/Flags.lean ====
section
/-! DEFINITION. Flags: setting and clearing the bits of the three shadow registers (R74, R82), and the block's only status flag,
the error code: its numeric codes (60_exceptions.md R190) and the bus validation that records `InvalidBus` (R138, R192).  The
other cause, `MissingPin`, is recorded inside `drive` (R90, R191). -/

namespace Sys2Proof.Machine

/-- `r | mask`. -/
def setBits (mask r : Byte) : Byte := r ||| mask

/-- `r & ~mask`. -/
def clearBits (mask r : Byte) : Byte := r &&& ~~~mask

/-- `(r & ~mask) | (mask if v else 0x00)` (R119 to R122). -/
def putBits (mask : Byte) (v : Bool) (r : Byte) : Byte := clearBits mask r ||| (if v then mask else 0x00)

/-- Some bit of `mask` is set. -/
def testBits (mask r : Byte) : Bool := r &&& mask ≠ 0

/-- The slot index: the position in the source's listing (R11). -/
def slotIndex : Slot → Nat
  | .rs => 0
  | .en => 1
  | .rw => 2
  | .d0 => 3
  | .d1 => 4
  | .d2 => 5
  | .d3 => 6
  | .d4 => 7
  | .d5 => 8
  | .d6 => 9
  | .d7 => 10
  | .bl => 11

/-- The 4-bit code of an error value, a label only (R190). -/
def ErrorCode.code : ErrorCode → Nibble
  | .missingPin p => BitVec.ofNat 4 (slotIndex p)
  | .invalidBus => 0xC
  | .noError => 0xF

/-- The set `required` that validation inspects (R32, R138). -/
def required (s : State) : List Slot :=
  if s.width = 4 then [.d4, .d5, .d6, .d7] else [.d0, .d1, .d2, .d3, .d4, .d5, .d6, .d7]

/-- Some required data slot is bound. -/
def busPresent (s : State) : Bool := (required s).any s.bound.get

/-- `validate()` (R138): fails only on the total absence of the bus, and then overwrites what was recorded. -/
def validate (s : State) : State := if busPresent s then s else raise .invalidBus s

end Sys2Proof.Machine
end

