-- ==== Sys2Proof/Machine/Accessors.lean ====
section
/-! DEFINITION. The accessors (43_control_ops.md R168 to R177): legal in both phases; each returns a value to the host and
changes no state of the block, emits no event and never writes `err`. -/

namespace Sys2Proof.Machine

/-- Return a value to the host. -/
def reply (a : Answer) (s : State) : Result := .next (s.answer a)

/-- R173. -/
def execGetDisplay (s : State) : Result := reply (.bool (testBits maskDisplay s.ctrl)) s

/-- R174. -/
def execGetCursor (s : State) : Result := reply (.bool (testBits maskCursor s.ctrl)) s

/-- R175. -/
def execGetBlink (s : State) : Result := reply (.bool (testBits maskBlink s.ctrl)) s

/-- R176. -/
def execGetAutoscroll (s : State) : Result := reply (.bool (testBits maskAutoscroll s.mode)) s

/-- R177. -/
def execGetLayout (s : State) : Result := reply (.layout (layoutOf s.mode)) s

/-- R169. -/
def execLines (s : State) : Result := reply (.lines (lineCountOf s.func)) s

/-- R170. -/
def execSize (s : State) : Result := reply (.size (cellSizeOf s.func)) s

/-- R171. -/
def execBusWidth (s : State) : Result := reply (.width s.width) s

/-- R172: reading does not clear. -/
def execError (s : State) : Result := reply (.error s.err) s

end Sys2Proof.Machine
end

