-- ==== Sys2Proof/Machine/Configuration.lean ====
section
/-! DEFINITION. The configuration operations (41_configuration.md R111 to R126).  Each is a plain state update in phase `CFG`,
emits no event and never writes `err` or `level` (R124); out of phase it is refused (R125, R204). -/

namespace Sys2Proof.Machine

/-- Bind every slot of a list. -/
def bindAll (l : List Slot) (s : State) : State := l.foldl (fun s p => s.bindSlot p) s

/-- `bind(s)` (R126). -/
def execBind (p : Slot) (s : State) : Result := inCfg (fun s => s.bindSlot p) s

/-- `with_rw()` (R111). -/
def execWithRw (s : State) : Result := inCfg (fun s => s.bindSlot .rw) s

/-- `with_half_bus()` (R112): slots already bound stay bound. -/
def execWithHalfBus (s : State) : Result :=
  inCfg (fun s => (bindAll [.d4, .d5, .d6, .d7] s).setFunc (clearBits maskWidth s.func)) s

/-- `with_full_bus()` (R113). -/
def execWithFullBus (s : State) : Result :=
  inCfg (fun s => (bindAll [.d0, .d1, .d2, .d3, .d4, .d5, .d6, .d7] s).setFunc (setBits maskWidth s.func)) s

/-- `with_backlight()` (R114): the line is not driven. -/
def execWithBacklight (s : State) : Result := inCfg (fun s => s.bindSlot .bl) s

/-- `with_cols(c)` (R115). -/
def execWithCols (c : Byte) (s : State) : Result :=
  inCfg (fun s => s.setCols (clampCols c) (offsetsFor (clampCols c))) s

/-- `with_size(v)` (R116): bit 2 only, which is also the low bit of `LINES`. -/
def execWithSize (v : CellSize) (s : State) : Result :=
  inCfg (fun s => s.setFunc (clearBits maskSize s.func ||| sizeBits v)) s

/-- `with_lines(v)` (R117): both bits are cleared first, so the size bit is overwritten. -/
def execWithLines (v : LineCount) (s : State) : Result :=
  inCfg (fun s => s.setFunc (clearBits maskLines s.func ||| lineBits v)) s

/-- `with_layout(v)` (R118). -/
def execWithLayout (v : Layout) (s : State) : Result :=
  inCfg (fun s => s.setMode (clearBits maskLayout s.mode ||| layoutBits v)) s

/-- `with_display(v)` (R119). -/
def execWithDisplay (v : Bool) (s : State) : Result := inCfg (fun s => s.setCtrl (putBits maskDisplay v s.ctrl)) s

/-- `with_cursor(v)` (R120). -/
def execWithCursor (v : Bool) (s : State) : Result := inCfg (fun s => s.setCtrl (putBits maskCursor v s.ctrl)) s

/-- `with_blink(v)` (R121). -/
def execWithBlink (v : Bool) (s : State) : Result := inCfg (fun s => s.setCtrl (putBits maskBlink v s.ctrl)) s

/-- `with_autoscroll(v)` (R122). -/
def execWithAutoscroll (v : Bool) (s : State) : Result := inCfg (fun s => s.setMode (putBits maskAutoscroll v s.mode)) s

/-- `with_reliable_init(d)` (R123): only records the request; a later call replaces it. -/
def execWithReliableInit (d : Nat) (s : State) : Result := inCfg (fun s => s.setReliable d) s

end Sys2Proof.Machine
end

