-- ==== Sys2Proof/Machine/Control.lean ====
section
/-! DEFINITION. The runtime control operations (43_control_ops.md R150 to R167): clear, home, addressing, scrolling, the nine
register toggles, custom characters, print and the backlight.  All require phase `RDY` (R178). -/

namespace Sys2Proof.Machine

/-- `clear()` (R150). -/
def execClear (s : State) : Result := inRdy (command opClear) s

/-- `home()` (R151). -/
def execHome (s : State) : Result := inRdy (command opHome) s

/-- `set_position(col, row)` (R152): bit 7 of the sum is absorbed by the opcode bit (R71). -/
def execSetPosition (col row : Byte) (s : State) : Result :=
  inRdy (fun s => command (opDdram ||| position s.func s.offsets col row) s) s

/-- `scroll(dir, n)` (R153). -/
def execScroll (dir : Dir) (n : Byte) (s : State) : Result := inRdy (times n.toNat (command (shiftCommand dir))) s

/-- Write the control register, then send the whole of it (R33, R167). -/
def pushCtrl (v : Byte) (s : State) : State := command (registerCommand opDisplayControl v) (s.setCtrl v)

/-- Write the entry-mode register, then send the whole of it (R33, R167). -/
def pushMode (v : Byte) (s : State) : State := command (registerCommand opEntryMode v) (s.setMode v)

/-- `display_on()` (R154). -/
def execDisplayOn (s : State) : Result := inRdy (fun s => pushCtrl (setBits maskDisplay s.ctrl) s) s

/-- `display_off()` (R155). -/
def execDisplayOff (s : State) : Result := inRdy (fun s => pushCtrl (clearBits maskDisplay s.ctrl) s) s

/-- `cursor_on()` (R156). -/
def execCursorOn (s : State) : Result := inRdy (fun s => pushCtrl (setBits maskCursor s.ctrl) s) s

/-- `cursor_off()` (R157). -/
def execCursorOff (s : State) : Result := inRdy (fun s => pushCtrl (clearBits maskCursor s.ctrl) s) s

/-- `blink_on()` (R158). -/
def execBlinkOn (s : State) : Result := inRdy (fun s => pushCtrl (setBits maskBlink s.ctrl) s) s

/-- `blink_off()` (R159). -/
def execBlinkOff (s : State) : Result := inRdy (fun s => pushCtrl (clearBits maskBlink s.ctrl) s) s

/-- `autoscroll_on()` (R160). -/
def execAutoscrollOn (s : State) : Result := inRdy (fun s => pushMode (setBits maskAutoscroll s.mode) s) s

/-- `autoscroll_off()` (R161). -/
def execAutoscrollOff (s : State) : Result := inRdy (fun s => pushMode (clearBits maskAutoscroll s.mode) s) s

/-- `set_layout(v)` (R162). -/
def execSetLayout (v : Layout) (s : State) : Result :=
  inRdy (fun s => pushMode (clearBits maskLayout s.mode ||| layoutBits v) s) s

/-- Send bytes as data, in order. -/
def writeAll (l : List Byte) (s : State) : State := l.foldl (fun s b => write b s) s

/-- `set_character(k, g)` (R163): nothing is sent after the rows (R224). -/
def execSetCharacter (k : Byte) (g : List Byte) (s : State) : Result :=
  inRdy (fun s => s |> command (glyphCommand k) |> writeAll g) s

/-- `print(t)` (R164). -/
def execPrint (t : List Nat) (s : State) : Result := inRdy (writeAll (t.map charByte)) s

/-- `backlight_on()` (R165). -/
def execBacklightOn (s : State) : Result := inRdy (drive .bl .high) s

/-- `backlight_off()` (R166). -/
def execBacklightOff (s : State) : Result := inRdy (drive .bl .low) s

end Sys2Proof.Machine
end

