-- ==== Sys2Proof/Machine/Initialization.lean ====
section
/-! DEFINITION. The initialization state machine (42_initialization.md): `build` as one atomic operation (R141) and the same
walk as the small-step sequencer `S0` to `S14` (R140). -/

namespace Sys2Proof.Machine

/-- One on-off pair of the reliable-init pre-step; `ctrl` is not modified (R131). -/
def toggleOnce (d : Nat) (s : State) : State :=
  s |> send (registerCommand opDisplayControl (setBits maskDisplay s.ctrl)) false |> wait (.us d)
    |> send (registerCommand opDisplayControl (clearBits maskDisplay s.ctrl)) false |> wait (.us d)

/-- Step 0, the optional pre-step (R131): `repeat N_RELIABLE times`, the count of this construction. -/
def preStep (s : State) : State :=
  match s.reliable with
  | none => s
  | some d => times s.repeats (toggleOnce d) s

/-- Step 2 (R133). -/
def forceLow (s : State) : State := s |> drive .rs .low |> drive .en .low |> forceWrite

/-- The function-set command of the stored register (R69, R135, R136). -/
def sendFunction (s : State) : State := send (registerCommand opFunctionSet s.func) false s

/-- The display-control command of the stored register (R67, R136). -/
def sendControl (s : State) : State := send (registerCommand opDisplayControl s.ctrl) false s

/-- The entry-mode command of the stored register (R66, R136). -/
def sendMode (s : State) : State := send (registerCommand opEntryMode s.mode) false s

/-- Step 3, 4-bit (R134): raw nibbles; no wait after the commit nibble (R232). -/
def handshake4 (s : State) : State :=
  s |> update nibbleSync |> wait .initLong
    |> update nibbleSync |> wait .initLong
    |> update nibbleSync |> wait .initShort
    |> update nibbleCommit

/-- Step 3, 8-bit (R135): each item is a full `send`. -/
def handshake8 (s : State) : State :=
  s |> sendFunction |> wait .initLong
    |> sendFunction |> wait .initLong
    |> sendFunction |> wait .initShort

/-- Step 3. -/
def handshake (s : State) : State := if s.width = 4 then handshake4 s else handshake8 s

/-- Step 4 (R136). -/
def commitRegisters (s : State) : State := s |> sendFunction |> sendControl |> sendMode

/-- Step 5 (R137). -/
def clearAndHome (s : State) : State := s |> send opClear false |> send opHome false

/-- The whole of `build` (R141). -/
def buildAll (s : State) : State :=
  s |> preStep |> wait .powerup |> forceLow |> handshake |> commitRegisters |> clearAndHome |> validate
    |> State.setPhase .rdy

/-- `build()` (R130): legal once, in phase `CFG` (R143, R204). -/
def execBuild (s : State) : Result := inCfg buildAll s

/-! ## The sequencer as a step list (R140) -/

/-- The sequencer's states; `done` is phase `RDY` reached. -/
inductive SeqState where
  | s0 | s1 | s2 | s3 | s4 | s5 | s6 | s7 | s8 | s9 | s10 | s11 | s12 | s13 | s14 | done
  deriving DecidableEq, Repr

/-- One handshake item (R134, R135). -/
def handshakeItem (s : State) : State := if s.width = 4 then update nibbleSync s else sendFunction s

/-- The action taken on leaving a sequencer state; a state whose condition is false is passed through with no action. -/
def seqAction : SeqState → State → State
  | .s0, s => preStep s
  | .s1, s => wait .powerup s
  | .s2, s => forceLow s
  | .s3, s => handshakeItem s
  | .s4, s => wait .initLong s
  | .s5, s => handshakeItem s
  | .s6, s => wait .initLong s
  | .s7, s => handshakeItem s
  | .s8, s => wait .initShort s
  | .s9, s => if s.width = 4 then update nibbleCommit s else s
  | .s10, s => sendFunction s
  | .s11, s => sendControl s
  | .s12, s => sendMode s
  | .s13, s => clearAndHome s
  | .s14, s => (validate s).setPhase .rdy
  | .done, s => s

/-- The walk is linear. -/
def seqNext : SeqState → SeqState
  | .s0 => .s1
  | .s1 => .s2
  | .s2 => .s3
  | .s3 => .s4
  | .s4 => .s5
  | .s5 => .s6
  | .s6 => .s7
  | .s7 => .s8
  | .s8 => .s9
  | .s9 => .s10
  | .s10 => .s11
  | .s11 => .s12
  | .s12 => .s13
  | .s13 => .s14
  | .s14 => .done
  | .done => .done

/-- `n` moves of the sequencer. -/
def seqWalk : Nat → SeqState × State → SeqState × State
  | 0, c => c
  | n + 1, (q, s) => seqWalk n (seqNext q, seqAction q s)

end Sys2Proof.Machine
end

