-- ==== Sys2Proof/Machine/Transmission.lean ====
section
/-! DEFINITION. The raw transmission operations of the host (40_transmission.md R95, R99, R101): any byte is accepted and sent
unexamined (30_encoding.md R76). -/

namespace Sys2Proof.Machine

/-- `send(b, rs)` (R95). -/
def execSend (b : Byte) (rs : Bool) (s : State) : Result := inRdy (send b rs) s

/-- `command(b)` (R99). -/
def execCommand (b : Byte) (s : State) : Result := inRdy (command b) s

/-- `write(b)` (R101). -/
def execWrite (b : Byte) (s : State) : Result := inRdy (write b) s

end Sys2Proof.Machine
end

