-- ==== Sys2Proof/WellFormed.lean ====
section
/-! DEFINITION. Well-formed instructions and the two levels of description.  Every operand type but one is exact by its Lean
type (a byte, a 6-bit or 7-bit address, an enumeration); the one check left is the length of a glyph (R78: "`glyph` exactly 8
bytes"). -/

namespace Sys2Proof

/-- A glyph has exactly eight rows (R78, R163). -/
def glyphOk (g : List Byte) : Bool := g.length == 8

/-- The instruction is one the spec gives a meaning to. -/
def Instr.wellFormed : Instr → Bool
  | .setCharacter _ g => glyphOk g
  | .clearDisplay | .returnHome | .entryModeSet _ _ | .displayControl _ _ _ | .cursorDisplayShift _ _
  | .functionSet _ _ _ | .setCgramAddr _ | .setDdramAddr _ | .dataWrite _ | .rawNibbleSync | .rawNibbleCommit
  | .bind _ | .withRw | .withHalfBus | .withFullBus | .withBacklight | .withCols _ | .withSize _ | .withLines _
  | .withLayout _ | .withDisplay _ | .withCursor _ | .withBlink _ | .withAutoscroll _ | .withReliableInit _ | .build
  | .send _ _ | .command _ | .write _ | .print _ | .clear | .home | .setPosition _ _ | .scroll _ _
  | .displayOn | .displayOff | .cursorOn | .cursorOff | .blinkOn | .blinkOff | .autoscrollOn | .autoscrollOff
  | .setLayout _ | .backlightOn | .backlightOff
  | .getDisplay | .getCursor | .getBlink | .getAutoscroll | .getLayout | .lines | .size | .busWidth | .error => true

/-- The rows of the table's formats (R81). -/
inductive Format where
  | cmd | data | nib | host
  deriving DecidableEq, Repr

/-- The table's `format` column. -/
def Instr.format : Instr → Format
  | .clearDisplay | .returnHome | .entryModeSet _ _ | .displayControl _ _ _ | .cursorDisplayShift _ _
  | .functionSet _ _ _ | .setCgramAddr _ | .setDdramAddr _ => .cmd
  | .dataWrite _ => .data
  | .rawNibbleSync | .rawNibbleCommit => .nib
  | .bind _ | .withRw | .withHalfBus | .withFullBus | .withBacklight | .withCols _ | .withSize _ | .withLines _
  | .withLayout _ | .withDisplay _ | .withCursor _ | .withBlink _ | .withAutoscroll _ | .withReliableInit _ | .build
  | .send _ _ | .command _ | .write _ | .print _ | .clear | .home | .setPosition _ _ | .scroll _ _
  | .displayOn | .displayOff | .cursorOn | .cursorOff | .blinkOn | .blinkOff | .autoscrollOn | .autoscrollOff
  | .setLayout _ | .setCharacter _ _ | .backlightOn | .backlightOff
  | .getDisplay | .getCursor | .getBlink | .getAutoscroll | .getLayout | .lines | .size | .busWidth | .error => .host

/-- A host operation (R3, R78), as opposed to a wire item. -/
def Instr.isHost (i : Instr) : Bool := i.format == .host

end Sys2Proof
end

