-- ==== Sys2Proof/Decode.lean ====
section
/-! DEFINITION. The encodings of 30_encoding.md, read and written.

A code has a FORMAT beside its bits (R81), because the bits alone do not name a row: "DATA rows are distinguished from CMD rows
by RS, not by bits", and a raw nibble is a frame and not a byte.  Only wire items have a code.  A host operation has none (R80):
it is a value of `Instr`, the table key `opidx` is no encoding, and nothing here decodes one. -/

namespace Sys2Proof

/-- A code: its format, and its bits (bits 7 to 4 are 0 for a `nib`). -/
structure Code where
  format : Format
  word : Byte
  deriving DecidableEq, Repr

/-- Why a code names no instruction. -/
inductive Reject where
  /-- A command byte outside R64 to R71: "no meaning assigned by any source" (R76(b)). -/
  | noCommand (b : Byte)
  /-- A nibble that is neither the sync nor the commit nibble (R73). -/
  | noNibble (n : Byte)
  /-- Bits said to be a host operation: "the source gives the host side no bit-level encoding" (R80). -/
  | noEncoding
  deriving DecidableEq, Repr

namespace Encoding

/-- Bit `i` of a byte, set or not. -/
def bit (v : Bool) (i : Nat) : Byte := if v then 1 <<< i else 0

/-- R64: `0000 0001`. -/
def clearDisplay : Byte := 0x01
/-- R65: `0000 0010`. -/
def returnHome : Byte := 0x02
/-- R66: `0000 01 ID S`. -/
def entryModeSet (id s : Bool) : Byte := 0x04 ||| bit id 1 ||| bit s 0
/-- R67: `0000 1 D C B`. -/
def displayControl (d c b : Bool) : Byte := 0x08 ||| bit d 2 ||| bit c 1 ||| bit b 0
/-- R68: `0001 SC RL 0 0`. -/
def cursorDisplayShift (sc rl : Bool) : Byte := 0x10 ||| bit sc 3 ||| bit rl 2
/-- R69: `001 DL N F 0 0`. -/
def functionSet (dl n f : Bool) : Byte := 0x20 ||| bit dl 4 ||| bit n 3 ||| bit f 2
/-- R70: `01 a5..a0`. -/
def setCgramAddr (a : BitVec 6) : Byte := 0x40 ||| a.setWidth 8
/-- R71: `1 a6..a0`. -/
def setDdramAddr (a : BitVec 7) : Byte := 0x80 ||| a.setWidth 8

end Encoding

/-- The command formats of R63, most significant opcode bit first.  A byte outside them is rejected by name (R76(b)). -/
def decodeCommand (b : Byte) : Except Reject Instr :=
  if b &&& 0x80 = 0x80 then .ok (.setDdramAddr (b.setWidth 7))
  else if b &&& 0xC0 = 0x40 then .ok (.setCgramAddr (b.setWidth 6))
  else if b &&& 0xE3 = 0x20 then .ok (.functionSet (b.getLsbD 4) (b.getLsbD 3) (b.getLsbD 2))
  else if b &&& 0xF3 = 0x10 then .ok (.cursorDisplayShift (b.getLsbD 3) (b.getLsbD 2))
  else if b &&& 0xF8 = 0x08 then .ok (.displayControl (b.getLsbD 2) (b.getLsbD 1) (b.getLsbD 0))
  else if b &&& 0xFC = 0x04 then .ok (.entryModeSet (b.getLsbD 1) (b.getLsbD 0))
  else if b = 0x02 then .ok .returnHome
  else if b = 0x01 then .ok .clearDisplay
  else .error (.noCommand b)

/-- The raw nibbles of R73. -/
def decodeNibble (n : Byte) : Except Reject Instr :=
  if n = 0x03 then .ok .rawNibbleSync
  else if n = 0x02 then .ok .rawNibbleCommit
  else .error (.noNibble n)

/-- The instruction a code stands for; total, and every rejection has a name. -/
def decode (c : Code) : Except Reject Instr :=
  match c.format with
  | .cmd => decodeCommand c.word
  | .data => .ok (.dataWrite c.word)
  | .nib => decodeNibble c.word
  | .host => .error .noEncoding

/-- The code of a wire item, from the tables of R63, R72 and R73; none for a host operation (R80). -/
def encode : Instr → Option Code
  | .clearDisplay => some ⟨.cmd, Encoding.clearDisplay⟩
  | .returnHome => some ⟨.cmd, Encoding.returnHome⟩
  | .entryModeSet id s => some ⟨.cmd, Encoding.entryModeSet id s⟩
  | .displayControl d c b => some ⟨.cmd, Encoding.displayControl d c b⟩
  | .cursorDisplayShift sc rl => some ⟨.cmd, Encoding.cursorDisplayShift sc rl⟩
  | .functionSet dl n f => some ⟨.cmd, Encoding.functionSet dl n f⟩
  | .setCgramAddr a => some ⟨.cmd, Encoding.setCgramAddr a⟩
  | .setDdramAddr a => some ⟨.cmd, Encoding.setDdramAddr a⟩
  | .dataWrite d => some ⟨.data, d⟩
  | .rawNibbleSync => some ⟨.nib, 0x03⟩
  | .rawNibbleCommit => some ⟨.nib, 0x02⟩
  | .bind _ | .withRw | .withHalfBus | .withFullBus | .withBacklight | .withCols _ | .withSize _ | .withLines _
  | .withLayout _ | .withDisplay _ | .withCursor _ | .withBlink _ | .withAutoscroll _ | .withReliableInit _ | .build
  | .send _ _ | .command _ | .write _ | .print _ | .clear | .home | .setPosition _ _ | .scroll _ _
  | .displayOn | .displayOff | .cursorOn | .cursorOff | .blinkOn | .blinkOff | .autoscrollOn | .autoscrollOff
  | .setLayout _ | .setCharacter _ _ | .backlightOn | .backlightOff
  | .getDisplay | .getCursor | .getBlink | .getAutoscroll | .getLayout | .lines | .size | .busWidth | .error => none

/-- The accepted instruction, if any. -/
def accepted (r : Except Reject Instr) : Option Instr :=
  match r with
  | .ok i => some i
  | .error _ => none

/-- The wire item a bare table word names.  A bare word carries no RS, which is all that tells `DATA_WRITE` from a command (R81), so
a word of 8 bits is read as a command; a `NIB` row's word comes as 4 bits, or as a whole byte that is no command.  A host
operation has no encoding (R80), so no word names one (assumption 6). -/
def decodeTableWord (nbits w : Nat) : Option Instr :=
  if nbits = 4 ∧ w < 16 then accepted (decode ⟨.nib, BitVec.ofNat 8 w⟩)
  else if nbits = 8 ∧ w < 256 then
    match accepted (decode ⟨.cmd, BitVec.ofNat 8 w⟩) with
    | some i => some i
    | none => accepted (decode ⟨.nib, BitVec.ofNat 8 w⟩)
  else none

/-- The class of a latched command byte, given by its highest set bit, "lower undefined bits being don't-care" (R76(c)).  An
observer's reading; the block decodes no command (R76). -/
inductive CommandClass where
  | ddram | cgram | functionSet | shift | displayControl | entryMode | home | clear | noCommand
  deriving DecidableEq, Repr

/-- R76(c). -/
def commandClass (b : Byte) : CommandClass :=
  if b.getLsbD 7 then .ddram
  else if b.getLsbD 6 then .cgram
  else if b.getLsbD 5 then .functionSet
  else if b.getLsbD 4 then .shift
  else if b.getLsbD 3 then .displayControl
  else if b.getLsbD 2 then .entryMode
  else if b.getLsbD 1 then .home
  else if b.getLsbD 0 then .clear
  else .noCommand

end Sys2Proof
end

