-- ==== Sys2Proof/Machine/Wire.lean ====
section
/-! DEFINITION. The wire items (30_encoding.md R64 to R73), each as the block puts it on the lines (R62): a command byte with
RS = `L` and the command settle delay, a data byte with RS = `H` and the character delay, or one raw 4-bit frame.  A wire item
is no host operation, so no phase check stands before it: `build` transmits in phase `CFG`, the control operations in `RDY`
(assumption 5).  What the LCD does with a latched item is outside the block (R5, R64, R72). -/

namespace Sys2Proof.Machine

/-- A command byte on the lines (R62, R63). -/
def transmitCommand (b : Byte) (s : State) : Result := .next (send b false s)

/-- One raw 4-bit frame, not half of a byte: RS is not driven again and no wait follows (R73, R98). -/
def transmitNibble (v : Byte) (s : State) : Result := .next (frame4 v s)

/-- R64. -/
def execClearDisplay (s : State) : Result := transmitCommand Encoding.clearDisplay s

/-- R65. -/
def execReturnHome (s : State) : Result := transmitCommand Encoding.returnHome s

/-- R66.  The shadow register `mode` is not written: only host operations write shadows (R29). -/
def execEntryModeSet (id sc : Bool) (s : State) : Result := transmitCommand (Encoding.entryModeSet id sc) s

/-- R67. -/
def execDisplayControl (d c b : Bool) (s : State) : Result := transmitCommand (Encoding.displayControl d c b) s

/-- R68. -/
def execCursorDisplayShift (sc rl : Bool) (s : State) : Result := transmitCommand (Encoding.cursorDisplayShift sc rl) s

/-- R69. -/
def execFunctionSet (dl n f : Bool) (s : State) : Result := transmitCommand (Encoding.functionSet dl n f) s

/-- R70. -/
def execSetCgramAddr (a : BitVec 6) (s : State) : Result := transmitCommand (Encoding.setCgramAddr a) s

/-- R71. -/
def execSetDdramAddr (a : BitVec 7) (s : State) : Result := transmitCommand (Encoding.setDdramAddr a) s

/-- R72. -/
def execDataWrite (d : Byte) (s : State) : Result := .next (send d true s)

/-- R73: nibble `0x3`. -/
def execRawNibbleSync (s : State) : Result := transmitNibble nibbleSync s

/-- R73: nibble `0x2`. -/
def execRawNibbleCommit (s : State) : Result := transmitNibble nibbleCommit s

end Sys2Proof.Machine
end

