-- ==== Sys2Proof/Machine/Dispatch.lean ====
section
/-! DEFINITION. The dispatch: one arm per row of the opcode table, each one call of the instruction's own meaning. -/

namespace Sys2Proof.Machine

def exec (i : Instr) (s : State) : Host.Outcome State Fault Refusal :=
  match i with
  | .clearDisplay => Sys2Proof.Machine.execClearDisplay s
  | .returnHome => Sys2Proof.Machine.execReturnHome s
  | .entryModeSet id sc => Sys2Proof.Machine.execEntryModeSet id sc s
  | .displayControl d c b => Sys2Proof.Machine.execDisplayControl d c b s
  | .cursorDisplayShift sc rl => Sys2Proof.Machine.execCursorDisplayShift sc rl s
  | .functionSet dl n f => Sys2Proof.Machine.execFunctionSet dl n f s
  | .setCgramAddr a => Sys2Proof.Machine.execSetCgramAddr a s
  | .setDdramAddr a => Sys2Proof.Machine.execSetDdramAddr a s
  | .dataWrite d => Sys2Proof.Machine.execDataWrite d s
  | .rawNibbleSync => Sys2Proof.Machine.execRawNibbleSync s
  | .rawNibbleCommit => Sys2Proof.Machine.execRawNibbleCommit s
  | .bind p => Sys2Proof.Machine.execBind p s
  | .withRw => Sys2Proof.Machine.execWithRw s
  | .withHalfBus => Sys2Proof.Machine.execWithHalfBus s
  | .withFullBus => Sys2Proof.Machine.execWithFullBus s
  | .withBacklight => Sys2Proof.Machine.execWithBacklight s
  | .withCols c => Sys2Proof.Machine.execWithCols c s
  | .withSize v => Sys2Proof.Machine.execWithSize v s
  | .withLines v => Sys2Proof.Machine.execWithLines v s
  | .withLayout v => Sys2Proof.Machine.execWithLayout v s
  | .withDisplay v => Sys2Proof.Machine.execWithDisplay v s
  | .withCursor v => Sys2Proof.Machine.execWithCursor v s
  | .withBlink v => Sys2Proof.Machine.execWithBlink v s
  | .withAutoscroll v => Sys2Proof.Machine.execWithAutoscroll v s
  | .withReliableInit d => Sys2Proof.Machine.execWithReliableInit d s
  | .build => Sys2Proof.Machine.execBuild s
  | .send b rs => Sys2Proof.Machine.execSend b rs s
  | .command b => Sys2Proof.Machine.execCommand b s
  | .write b => Sys2Proof.Machine.execWrite b s
  | .print t => Sys2Proof.Machine.execPrint t s
  | .clear => Sys2Proof.Machine.execClear s
  | .home => Sys2Proof.Machine.execHome s
  | .setPosition col row => Sys2Proof.Machine.execSetPosition col row s
  | .scroll dir n => Sys2Proof.Machine.execScroll dir n s
  | .displayOn => Sys2Proof.Machine.execDisplayOn s
  | .displayOff => Sys2Proof.Machine.execDisplayOff s
  | .cursorOn => Sys2Proof.Machine.execCursorOn s
  | .cursorOff => Sys2Proof.Machine.execCursorOff s
  | .blinkOn => Sys2Proof.Machine.execBlinkOn s
  | .blinkOff => Sys2Proof.Machine.execBlinkOff s
  | .autoscrollOn => Sys2Proof.Machine.execAutoscrollOn s
  | .autoscrollOff => Sys2Proof.Machine.execAutoscrollOff s
  | .setLayout v => Sys2Proof.Machine.execSetLayout v s
  | .setCharacter k g => Sys2Proof.Machine.execSetCharacter k g s
  | .backlightOn => Sys2Proof.Machine.execBacklightOn s
  | .backlightOff => Sys2Proof.Machine.execBacklightOff s
  | .getDisplay => Sys2Proof.Machine.execGetDisplay s
  | .getCursor => Sys2Proof.Machine.execGetCursor s
  | .getBlink => Sys2Proof.Machine.execGetBlink s
  | .getAutoscroll => Sys2Proof.Machine.execGetAutoscroll s
  | .getLayout => Sys2Proof.Machine.execGetLayout s
  | .lines => Sys2Proof.Machine.execLines s
  | .size => Sys2Proof.Machine.execSize s
  | .busWidth => Sys2Proof.Machine.execBusWidth s
  | .error => Sys2Proof.Machine.execError s

end Sys2Proof.Machine
end

