-- ==== Sys2Proof/Machine/Step.lean ====
section
/-! DEFINITION. One step of the machine: the next operation the host has issued, run to completion (R2, R26, R51; D1).  The
block fetches no instructions and has no program counter (R26), so `pending` stands where other machines have memory and a
program counter (assumption 1). -/

namespace Sys2Proof.Machine

/-- Take the oldest request and run it.  With none the block idles: "all state is retained and all lines hold their last level"
(R205). -/
def step (s : State) : Host.Outcome State Fault Refusal :=
  match s.pending with
  | [] => .next s
  | i :: rest => if i.wellFormed then exec i (s.setPending rest) else .refused .malformedRequest

/-- `s` with the wire item of a table word requested before everything requested already; `s` itself where the word names no
instruction, as the table key of a host operation does not (R80): a host operation is requested as a value (assumptions 1, 6). -/
def State.withFetchWord (s : State) (nbits w : Nat) : State :=
  match decodeTableWord nbits w with
  | some i => s.setPending (i :: s.pending)
  | none => s

end Sys2Proof.Machine
end

