-- ==== Sys2Proof/Machine/Observe.lean ====
section
/-! DEFINITION. Observations over the output trace; no operation of the block uses them (R27): the latch function
(40_transmission.md R100), and the elapsed time that the waits guarantee (70_reset_and_hazards.md R235). -/

namespace Sys2Proof.Machine

/-- What one enable pulse hands to the LCD: the level of RS and of the active data lines, `D7` downwards; `none` is a line never
driven, whose value at the LCD is unknown (R100). -/
structure Latch where
  rs : Option Level
  data : List (Option Level)
  deriving DecidableEq, Repr

/-- RS and the active data lines at this moment. -/
def sample (width : Nat) (lv : PerSlot (Option Level)) : Latch where
  rs := lv.rs
  data := (dataBus width).map lv.get

/-- The level shadow after one event. -/
def applyEvent (lv : PerSlot (Option Level)) : Event → PerSlot (Option Level)
  | .drive p l => lv.set p (some l)
  | .wait _ => lv

/-- The event is the falling edge of EN. -/
def isLatchEdge (lv : PerSlot (Option Level)) (e : Event) : Bool := e == .drive .en .low && lv.en == some .high

/-- The latch function (R100): scan a trace from a known level shadow; record a latch at every `Drive(EN, L)` that finds EN high. -/
def latches (width : Nat) (lv : PerSlot (Option Level)) : List Event → List Latch
  | [] => []
  | e :: l =>
    let rest := latches width (applyEvent lv e) l
    if isLatchEdge lv e then sample width lv :: rest else rest

/-- The waits of a trace, in order. -/
def waitsOf : List Event → List Config.Duration
  | [] => []
  | .wait d :: l => d :: waitsOf l
  | .drive _ _ :: l => waitsOf l

/-- The least time a trace takes, in microseconds: waits add (R9), a `Drive` takes a non-negative time (R235). -/
def leastTime (l : List Event) : Nat := ((waitsOf l).map Config.Duration.micros).sum

end Sys2Proof.Machine
end

