-- ==== Sys2Proof/Safety.lean ====
section
/-! DEFINITION. The terms that claims about the machine use.

A SCRIPT is the list of pin writes and waits an operation attempts, written out from the spec's frames; `performed` says in one
equation what attempting a script does to a state: bound slots are driven, unbound ones are skipped, the last unbound one is the
error left behind, and nothing else changes (R90, R193, R194, R196).  The machine itself is not written with scripts: it runs the
spec's pseudocode, and the claims say that the two agree.

Below them stand the invariants of 10_state.md R31 and of 95_test_vectors.md section 4. -/

namespace Sys2Proof.Machine

/-! ## Scripts -/

/-- An attempted event reaches the outside world: a wait always, a pin write only on a bound slot (R90). -/
def reaches (bound : PerSlot Bool) : Event → Bool
  | .drive p _ => bound.get p
  | .wait _ => true

/-- The events a script emits. -/
def emitted (bound : PerSlot Bool) (l : List Event) : List Event := l.filter (reaches bound)

/-- The slots a script attempts to drive and finds unbound, in order. -/
def missed (bound : PerSlot Bool) : List Event → List Slot
  | [] => []
  | .drive p _ :: l => if bound.get p then missed bound l else p :: missed bound l
  | .wait _ :: l => missed bound l

/-- The error code a script leaves: the LAST unbound slot attempted, or what was there before (R196). -/
def errAfter (bound : PerSlot Bool) (old : ErrorCode) (l : List Event) : ErrorCode :=
  match (missed bound l).getLast? with
  | some p => .missingPin p
  | none => old

/-- The level shadow after a list of events that did happen (R13, R100). -/
def levelAfter (lv : PerSlot (Option Level)) (l : List Event) : PerSlot (Option Level) := l.foldl applyEvent lv

/-- The whole effect of attempting a script. -/
def State.performed (l : List Event) (s : State) : State :=
  { s with
    trace := s.trace ++ emitted s.bound l
    level := levelAfter s.level (emitted s.bound l)
    err := errAfter s.bound s.err l }

/-- Line `p` at bit `i` of `v`. -/
def lineEvent (p : Slot) (v : Byte) (i : Nat) : Event := .drive p (if v.getLsbD i then .high else .low)

/-- One 4-bit frame (R61). -/
def frame4Script (v : Byte) : List Event :=
  [.drive .en .low, lineEvent .d7 v 3, lineEvent .d6 v 2, lineEvent .d5 v 1, lineEvent .d4 v 0,
    .drive .en .high, .drive .en .low]

/-- One 8-bit frame (R60). -/
def frame8Script (v : Byte) : List Event :=
  [.drive .en .low, lineEvent .d7 v 7, lineEvent .d6 v 6, lineEvent .d5 v 5, lineEvent .d4 v 4, lineEvent .d3 v 3,
    lineEvent .d2 v 2, lineEvent .d1 v 1, lineEvent .d0 v 0, .drive .en .high, .drive .en .low]

/-- The frames of one byte: two nibbles, high first, or the byte (R43, R62). -/
def byteScript (eight : Bool) (b : Byte) : List Event :=
  if eight then frame8Script b else frame4Script (b >>> 4) ++ frame4Script (b &&& 0x0F)

/-- RW forced low, where it is bound (R97). -/
def rwScript (rwBound : Bool) : List Event := if rwBound then [.drive .rw .low] else []

/-- A command transmission: RS low, the frames, then the command delay (R62, R98). -/
def commandScript (eight rwBound : Bool) (b : Byte) : List Event :=
  .drive .rs .low :: rwScript rwBound ++ byteScript eight b ++ [.wait .cmd]

/-- A data transmission: the character delay, RS high, then the frames (R62, R98). -/
def dataScript (eight rwBound : Bool) (b : Byte) : List Event :=
  .wait .chr :: .drive .rs .high :: rwScript rwBound ++ byteScript eight b

/-- The script of a command byte in the framing of `s`. -/
def State.commandScript (s : State) (b : Byte) : List Event := Machine.commandScript s.eightBit s.bound.rw b

/-- The script of a data byte in the framing of `s`. -/
def State.dataScript (s : State) (b : Byte) : List Event := Machine.dataScript s.eightBit s.bound.rw b

/-- Step 3 of `build` (R134, R135). -/
def State.handshakeScript (s : State) : List Event :=
  if s.eightBit then
    s.commandScript (0x20 ||| s.func) ++ [.wait .initLong] ++ s.commandScript (0x20 ||| s.func) ++ [.wait .initLong]
      ++ s.commandScript (0x20 ||| s.func) ++ [.wait .initShort]
  else
    frame4Script 0x03 ++ [.wait .initLong] ++ frame4Script 0x03 ++ [.wait .initLong] ++ frame4Script 0x03
      ++ [.wait .initShort] ++ frame4Script 0x02

/-- The reliable-init pre-step (R131), as often as the construction's `N_RELIABLE` says. -/
def State.preScript (s : State) : List Event :=
  match s.reliable with
  | none => []
  | some d =>
    (List.replicate s.repeats
      (s.commandScript (0x08 ||| (s.ctrl ||| 0x04)) ++ [.wait (.us d)]
        ++ s.commandScript (0x08 ||| (s.ctrl &&& ~~~0x04)) ++ [.wait (.us d)])).flatten

/-- Every event `build` attempts, in order (R141). -/
def State.buildScript (s : State) : List Event :=
  s.preScript ++ [.wait .powerup]
    ++ (.drive .rs .low :: .drive .en .low :: rwScript s.bound.rw)
    ++ s.handshakeScript
    ++ s.commandScript (0x20 ||| s.func) ++ s.commandScript (0x08 ||| s.ctrl) ++ s.commandScript (0x04 ||| s.mode)
    ++ s.commandScript 0x01 ++ s.commandScript 0x02

/-- The data slots of the stored width, lowest number first (R32, R138). -/
def State.activeData (s : State) : List Slot :=
  if s.func.getLsbD 4 then [.d0, .d1, .d2, .d3, .d4, .d5, .d6, .d7] else [.d4, .d5, .d6, .d7]

/-- Some data slot that the stored width requires is bound (R138). -/
def State.busBound (s : State) : Bool :=
  if s.eightBit then
    s.bound.d0 || s.bound.d1 || s.bound.d2 || s.bound.d3 || s.bound.d4 || s.bound.d5 || s.bound.d6 || s.bound.d7
  else s.bound.d4 || s.bound.d5 || s.bound.d6 || s.bound.d7

/-- RS, EN and every active data line are bound. -/
def State.wired (s : State) : Prop :=
  s.bound.rs = true ∧ s.bound.en = true ∧ s.bound.d4 = true ∧ s.bound.d5 = true ∧ s.bound.d6 = true ∧ s.bound.d7 = true ∧
    (s.eightBit = true → s.bound.d0 = true ∧ s.bound.d1 = true ∧ s.bound.d2 = true ∧ s.bound.d3 = true)

/-- The events a run from `s` to `t` appended to the trace. -/
def newEvents (s t : State) : List Event := t.trace.drop s.trace.length

/-- What the LCD receives of one raw nibble when every line is wired (R61, R100). -/
def nibbleLatch (rs : Level) (v : Byte) : Latch :=
  { rs := some rs, data := [3, 2, 1, 0].map fun i => some (if v.getLsbD i then .high else .low) }

/-- What the LCD receives of one byte when every line is wired (R62): RS with the byte, or with its two nibbles. -/
def byteLatches (eight : Bool) (rs : Level) (b : Byte) : List Latch :=
  if eight then
    [{ rs := some rs, data := [7, 6, 5, 4, 3, 2, 1, 0].map fun i => some (if b.getLsbD i then .high else .low) }]
  else [nibbleLatch rs (b >>> 4), nibbleLatch rs (b &&& 0x0F)]

/-- The phase an instruction needs, by the phase column of R78; accessors run in both phases, and a wire item is no host
operation (R3). -/
def phaseNeeded : Instr → Option Phase
  | .bind _ | .withRw | .withHalfBus | .withFullBus | .withBacklight | .withCols _ | .withSize _ | .withLines _
  | .withLayout _ | .withDisplay _ | .withCursor _ | .withBlink _ | .withAutoscroll _ | .withReliableInit _ | .build =>
    some .cfg
  | .send _ _ | .command _ | .write _ | .print _ | .clear | .home | .setPosition _ _ | .scroll _ _
  | .displayOn | .displayOff | .cursorOn | .cursorOff | .blinkOn | .blinkOff | .autoscrollOn | .autoscrollOff
  | .setLayout _ | .setCharacter _ _ | .backlightOn | .backlightOff => some .rdy
  | .getDisplay | .getCursor | .getBlink | .getAutoscroll | .getLayout | .lines | .size | .busWidth | .error => none
  | .clearDisplay | .returnHome | .entryModeSet _ _ | .displayControl _ _ _ | .cursorDisplayShift _ _
  | .functionSet _ _ _ | .setCgramAddr _ | .setDdramAddr _ | .dataWrite _ | .rawNibbleSync | .rawNibbleCommit => none

/-- One instruction after another, each on the state the one before left; the first that does not complete ends it. -/
def runAll : List Instr → State → Result
  | [], s => .next s
  | i :: l, s =>
    match exec i s with
    | .next t => runAll l t
    | .fault f => .fault f
    | .refused r => .refused r

/-! ## Invariants -/

/-- (a) of R31: no reserved bit is set (R20). -/
def State.reservedClear (s : State) : Prop :=
  s.func &&& ~~~0x1C = 0 ∧ s.ctrl &&& ~~~0x07 = 0 ∧ s.mode &&& ~~~0x03 = 0

/-- (b) of R31: the column count is in range and the table is the one computed from it (R21, R22). -/
def State.tableOk (s : State) : Prop :=
  s.cols ≤ 31 ∧ s.offsets = { row0 := 0x00, row1 := 0x40, row2 := s.cols, row3 := 0x40 + s.cols }

/-- (d) of R31, first half: an unbound slot was never driven. -/
def State.unboundUndriven (s : State) : Prop := ∀ p : Slot, s.bound.get p = false → s.level.get p = none

/-- EN is not left high, and RW is never high (R41, R92, R97). -/
def State.linesIdle (s : State) : Prop := s.level.en ≠ some .high ∧ s.level.rw ≠ some .high

/-- The level shadow is what the trace last drove (R13). -/
def State.levelIsReplay (s : State) : Prop := s.level = levelAfter (PerSlot.fill none) s.trace

/-- The invariant that every step keeps, whatever the requests are: R31 (a), (b), (d) first half; R13; R41. -/
structure State.Inv (s : State) : Prop where
  reserved : s.reservedClear
  table : s.tableOk
  undriven : s.unboundUndriven
  idle : s.linesIdle
  replay : s.levelIsReplay

/-- The invariant of a machine whose host issues host operations only (R2, R78): R31 (d) second half and (e). -/
structure State.HostInv (s : State) : Prop where
  hostOnly : ∀ i ∈ s.pending, i.isHost = true
  silent : s.phase = .cfg → s.level = PerSlot.fill none ∧ s.trace = []
  noError : s.phase = .cfg → s.err = .noError

/-- Each enable pulse of a trace is whole: nothing stands between `Drive(EN, H)` and the `Drive(EN, L)` that follows it (R92;
95_test_vectors.md section 4, item 1). -/
def pulsesWhole : List Event → Bool
  | [] => true
  | .drive .en .high :: l => l.head? == some (.drive .en .low) && pulsesWhole l
  | _ :: l => pulsesWhole l

/-- Two states that differ at most in `err`, `level` and the two outputs: what no operation reads (R13, R27, R198). -/
def State.sameButObserved (s t : State) : Prop :=
  t = { s with err := t.err, level := t.level, trace := t.trace, answers := t.answers }

end Sys2Proof.Machine
end

