-- ==== Sys2Proof/Certificates/Slice0/Obligations.lean ====
section
/-! DEFINITION. The statements for the provers.  A result is stated as one equation `exec i s = .next t`, with `t` written as `s`
with the fields the rule changes: the equation says the value, that the instruction completes, and its frame (every other register,
line, output and request is that of `s`).  Transmissions say `t` through `State.performed`, whose script is the list of pin
writes and waits written out from the spec's frames (see `Sys2Proof.Safety`).  Where a docstring says "spec's decision", the rule
closes a point the source leaves open, or a value is marked "from general knowledge" in the spec. -/

open Sys2Proof Sys2Proof.Machine

/-! ## Reset and parameters -/

/-- R30, and N_RELIABLE's default of R6.  `ctrl`, `mode` (spec's decision D8), `bound` (D9) and `level` (D10) are the spec's
decisions; that N_RELIABLE stands in State is the model's (log entry 3), and `pending`, `trace` and `answers` are the model's own
fields (log entries 1 and 4). -/
def Obligations.ResetHoldsTheListedValues : Prop :=
  State.reset.phase = .cfg ∧ (∀ p : Slot, State.reset.bound.get p = true ↔ p = .rs ∨ p = .en) ∧
    (∀ p : Slot, State.reset.level.get p = none) ∧
    State.reset.func = 0x00 ∧ State.reset.ctrl = 0x04 ∧ State.reset.mode = 0x02 ∧ State.reset.cols = 16 ∧
    State.reset.offsets = { row0 := 0x00, row1 := 0x40, row2 := 0x10, row3 := 0x50 } ∧
    State.reset.err = .noError ∧ State.reset.reliable = none ∧ State.reset.repeats = 3 ∧
    State.reset.pending = [] ∧ State.reset.trace = [] ∧ State.reset.answers = []

/-- R6, R234: what is known of the OPEN durations, whatever their values are.  That "in the low single-digit milliseconds" is a
time from 1000 up to, and not, 10000 microseconds is the model's reading (DEDUCED, log entry 2). -/
def Obligations.DurationsMeetTheirBounds : Prop :=
  40000 ≤ Config.Duration.micros .powerup ∧ 4500 ≤ Config.Duration.micros .initLong ∧
    150 ≤ Config.Duration.micros .initShort ∧
    1000 ≤ Config.Duration.micros .cmd ∧ Config.Duration.micros .cmd < 10000 ∧
    Config.Duration.micros .cmd < Config.Duration.micros .chr

/-! ## Primitives -/

/-- R90. -/
def Obligations.DriveIsGuardedByBound : Prop :=
  ∀ (p : Slot) (lv : Level) (s : State),
    (s.bound.get p = true →
      (∀ q : Slot, (drive p lv s).level.get q = if q = p then some lv else s.level.get q) ∧
        drive p lv s = { s with trace := s.trace ++ [.drive p lv], level := (drive p lv s).level }) ∧
      (s.bound.get p = false → drive p lv s = { s with err := .missingPin p })

/-- R91. -/
def Obligations.WaitEmitsOneWaitAndNothingElse : Prop :=
  ∀ (d : Config.Duration) (s : State), wait d s = { s with trace := s.trace ++ [.wait d] }

/-- R92. -/
def Obligations.PulseIsHighThenLowOnEnable : Prop :=
  ∀ s : State,
    (s.bound.en = true →
      pulse s = { s with
        trace := s.trace ++ [.drive .en .high, .drive .en .low], level := { s.level with en := some .low } }) ∧
      (s.bound.en = false → pulse s = { s with err := .missingPin .en })

/-- R60, R61, as the two frames stand there. -/
def Obligations.FramesPresentTheirBitsInOrder : Prop :=
  (∀ (v : Byte) (s : State), frame8 v s = s.performed
    [.drive .en .low, lineEvent .d7 v 7, lineEvent .d6 v 6, lineEvent .d5 v 5, lineEvent .d4 v 4, lineEvent .d3 v 3,
      lineEvent .d2 v 2, lineEvent .d1 v 1, lineEvent .d0 v 0, .drive .en .high, .drive .en .low]) ∧
    (∀ (v : Byte) (s : State), frame4 v s = s.performed
      [.drive .en .low, lineEvent .d7 v 3, lineEvent .d6 v 2, lineEvent .d5 v 1, lineEvent .d4 v 0,
        .drive .en .high, .drive .en .low]) ∧
    (∀ (v w : Byte) (s : State), v &&& 0x0F = w &&& 0x0F → frame4 v s = frame4 w s)

/-- R93, R94: the width flag picks the frame, and a cycle with every attempted slot bound emits 7 or 11 events. -/
def Obligations.UpdatePicksTheFrameByTheWidthFlag : Prop :=
  ∀ (v : Byte) (s : State),
    update v s = s.performed (if s.func.getLsbD 4 then frame8Script v else frame4Script v) ∧
      (s.wired → (newEvents s (update v s)).length = if s.func.getLsbD 4 then 11 else 7)

/-! ## Wire items: completion, result and frame -/

/-- R62 to R71: a command item transmits its byte with RS low, in the framing of `func[4]`, and one command delay.  The opcode and
flag bit values are the spec's decisions D5, D6. -/
def Obligations.CommandItemsTransmitTheirByte : Prop :=
  ∀ s : State,
    exec .clearDisplay s = .next (s.performed (s.commandScript 0x01)) ∧
    exec .returnHome s = .next (s.performed (s.commandScript 0x02)) ∧
    (∀ id sc : Bool, exec (.entryModeSet id sc) s =
      .next (s.performed (s.commandScript (0x04 ||| (if id then 0x02 else 0) ||| (if sc then 0x01 else 0))))) ∧
    (∀ d c b : Bool, exec (.displayControl d c b) s =
      .next (s.performed (s.commandScript
        (0x08 ||| (if d then 0x04 else 0) ||| (if c then 0x02 else 0) ||| (if b then 0x01 else 0))))) ∧
    (∀ sc rl : Bool, exec (.cursorDisplayShift sc rl) s =
      .next (s.performed (s.commandScript (0x10 ||| (if sc then 0x08 else 0) ||| (if rl then 0x04 else 0))))) ∧
    (∀ dl n f : Bool, exec (.functionSet dl n f) s =
      .next (s.performed (s.commandScript
        (0x20 ||| (if dl then 0x10 else 0) ||| (if n then 0x08 else 0) ||| (if f then 0x04 else 0))))) ∧
    (∀ a : BitVec 6, exec (.setCgramAddr a) s = .next (s.performed (s.commandScript (BitVec.ofNat 8 (0x40 + a.toNat))))) ∧
    (∀ a : BitVec 7, exec (.setDdramAddr a) s = .next (s.performed (s.commandScript (BitVec.ofNat 8 (0x80 + a.toNat)))))

/-- R72, R73: a data item is one data transmission; a raw nibble is one 4-bit frame, with RS not driven again and no wait.  That a
raw nibble is a 4-bit frame under an 8-bit width flag too is the model's choice (log entry 5). -/
def Obligations.DataAndNibbleItemsTransmit : Prop :=
  ∀ s : State,
    (∀ d : Byte, exec (.dataWrite d) s = .next (s.performed (s.dataScript d))) ∧
    exec .rawNibbleSync s = .next (s.performed (frame4Script 0x03)) ∧
    exec .rawNibbleCommit s = .next (s.performed (frame4Script 0x02))

/-! ## Configuration: completion, result and frame -/

/-- R111 to R114, R126.  That a half bus is `D4` to `D7` and the place of `DL` are the spec's decisions D4, D6, D26. -/
def Obligations.BindersSetBoundAndWidth : Prop :=
  ∀ s : State, s.phase = .cfg →
    (∀ p : Slot, ∃ t, exec (.bind p) s = .next t ∧ t = { s with bound := t.bound } ∧
      ∀ q : Slot, t.bound.get q = if q = p then true else s.bound.get q) ∧
    exec .withRw s = .next { s with bound := { s.bound with rw := true } } ∧
    exec .withBacklight s = .next { s with bound := { s.bound with bl := true } } ∧
    exec .withHalfBus s = .next { s with
      bound := { s.bound with d4 := true, d5 := true, d6 := true, d7 := true }, func := s.func &&& ~~~0x10 } ∧
    exec .withFullBus s = .next { s with
      bound := { s.bound with d0 := true, d1 := true, d2 := true, d3 := true, d4 := true, d5 := true, d6 := true, d7 := true }
      func := s.func ||| 0x10 }

/-- R22, R115: for every operand, in range or clamped (spec's decision D30 for the moment of recomputation). -/
def Obligations.WithColsSaturatesAndRecomputesTheTable : Prop :=
  ∀ (s : State) (c : Byte), s.phase = .cfg →
    exec (.withCols c) s = .next { s with
      cols := BitVec.ofNat 8 (min c.toNat 31)
      offsets :=
        { row0 := 0x00, row1 := 0x40, row2 := BitVec.ofNat 8 (min c.toNat 31)
          row3 := BitVec.ofNat 8 (0x40 + min c.toNat 31) } }

/-- R116, R117 (the shared bit is the spec's decision D7). -/
def Obligations.SizeAndLineSettersWriteTheirBits : Prop :=
  ∀ s : State, s.phase = .cfg →
    exec (.withSize .dots5x8) s = .next { s with func := s.func &&& ~~~0x04 } ∧
    exec (.withSize .dots5x10) s = .next { s with func := (s.func &&& ~~~0x04) ||| 0x04 } ∧
    exec (.withLines .oneLine) s = .next { s with func := s.func &&& ~~~0x0C } ∧
    exec (.withLines .twoLines) s = .next { s with func := (s.func &&& ~~~0x0C) ||| 0x08 } ∧
    exec (.withLines .fourLines) s = .next { s with func := (s.func &&& ~~~0x0C) ||| 0x0C }

/-- R118 to R122, bit by bit: the addressed bit takes the value, every other bit keeps its own (bit positions: D6). -/
def Obligations.AttributeSettersWriteOneBit : Prop :=
  ∀ (s : State) (v : Bool), s.phase = .cfg →
    (∃ r : Byte, exec (.withDisplay v) s = .next { s with ctrl := r } ∧
      ∀ i : Nat, i < 8 → r.getLsbD i = if i = 2 then v else s.ctrl.getLsbD i) ∧
    (∃ r : Byte, exec (.withCursor v) s = .next { s with ctrl := r } ∧
      ∀ i : Nat, i < 8 → r.getLsbD i = if i = 1 then v else s.ctrl.getLsbD i) ∧
    (∃ r : Byte, exec (.withBlink v) s = .next { s with ctrl := r } ∧
      ∀ i : Nat, i < 8 → r.getLsbD i = if i = 0 then v else s.ctrl.getLsbD i) ∧
    (∃ r : Byte, exec (.withAutoscroll v) s = .next { s with mode := r } ∧
      ∀ i : Nat, i < 8 → r.getLsbD i = if i = 0 then v else s.mode.getLsbD i) ∧
    (∀ l : Layout, ∃ r : Byte, exec (.withLayout l) s = .next { s with mode := r } ∧
      ∀ i : Nat, i < 8 → r.getLsbD i = if i = 1 then decide (l = .leftToRight) else s.mode.getLsbD i)

/-- R123 (spec's decision D17: the builder only records the request). -/
def Obligations.ReliableInitIsOnlyRecorded : Prop :=
  ∀ (s : State) (d : Nat), s.phase = .cfg → exec (.withReliableInit d) s = .next { s with reliable := some d }

/-- R124: over the whole family of 41_configuration.md. -/
def Obligations.ConfigurationEmitsNothing : Prop :=
  ∀ (i : Instr) (s t : State), phaseNeeded i = some .cfg → i ≠ .build → exec i s = .next t →
    t.trace = s.trace ∧ t.err = s.err ∧ t.level = s.level

/-! ## Initialization -/

/-- R141: `build` in phase `CFG`, whatever is bound: every event, the registers untouched, `err` by R141, then phase `RDY`.  The
opcode values (D5), the pre-step (D17) and the waits of the 8-bit handshake (D16) are the spec's decisions. -/
def Obligations.BuildRunsTheWholeSequence : Prop :=
  ∀ s : State, s.phase = .cfg →
    exec .build s = .next { s.performed s.buildScript with
      err := if s.busBound then errAfter s.bound s.err s.buildScript else .invalidBus
      phase := .rdy }

/-- R134: the nibbles, their order and the waits between them, with the bounds of those waits; no wait after the last. -/
def Obligations.FourBitHandshakeSendsThreeSyncsAndACommit : Prop :=
  (∀ s : State, s.func.getLsbD 4 = false →
    handshake s = s.performed
      (frame4Script 0x03 ++ [.wait .initLong] ++ frame4Script 0x03 ++ [.wait .initLong] ++ frame4Script 0x03
        ++ [.wait .initShort] ++ frame4Script 0x02)) ∧
    4500 ≤ Config.Duration.micros .initLong ∧ 150 ≤ Config.Duration.micros .initShort

/-- R138, R192, and the source's property E6: what validation does for each width, on every state: nothing but `err` changes and
nothing is emitted; no instruction but `build` records `InvalidBus`; and what `build` leaves of it: a bus that is wholly absent
leaves `InvalidBus`, one that is partly bound leaves the missing pin of some unbound slot, never `None`. -/
def Obligations.ValidationFailsOnlyOnTotalAbsence : Prop :=
  (∀ s : State,
    ((∃ p ∈ s.activeData, s.bound.get p = true) → validate s = s) ∧
    ((∀ p ∈ s.activeData, s.bound.get p = false) → validate s = { s with err := .invalidBus })) ∧
  (∀ (i : Instr) (s t : State), i ≠ .build → exec i s = .next t → t.err = .invalidBus → s.err = .invalidBus) ∧
  ∀ s : State, s.phase = .cfg →
    ∃ t, exec .build s = .next t ∧
      ((∀ p ∈ s.activeData, s.bound.get p = false) → t.err = .invalidBus) ∧
      ((∃ p ∈ s.activeData, s.bound.get p = true) → t.err = .invalidBus → s.err = .invalidBus) ∧
      ((∃ p ∈ s.activeData, s.bound.get p = true) → (∃ p ∈ s.activeData, s.bound.get p = false) →
        ∃ q : Slot, s.bound.get q = false ∧ t.err = .missingPin q)

/-- R140, D32: the small-step sequencer, walked from `S0`, ends in the state that the one-step `build` answers. -/
def Obligations.SequencerWalkEqualsBuild : Prop :=
  ∀ s : State, s.phase = .cfg →
    (seqWalk 15 (.s0, s)).1 = .done ∧ exec .build s = .next (seqWalk 15 (.s0, s)).2 ∧
      ∀ n : Nat, seqWalk (15 + n) (.s0, s) = seqWalk 15 (.s0, s)

/-- R142 (a), (b): with every line wired and no pre-step, what the LCD receives from `build`. -/
def Obligations.BuildLatchesAreTheHandshakeThenTheRegisters : Prop :=
  ∀ s : State, s.phase = .cfg → s.wired → s.reliable = none → s.level.en ≠ some .high →
    ∃ t, exec .build s = .next t ∧
      latches s.width s.level (newEvents s t) =
        (if s.func.getLsbD 4 then
          (List.replicate 3 (byteLatches true .low (0x20 ||| s.func))).flatten
        else [nibbleLatch .low 0x03, nibbleLatch .low 0x03, nibbleLatch .low 0x03, nibbleLatch .low 0x02])
        ++ ([0x20 ||| s.func, 0x08 ||| s.ctrl, 0x04 ||| s.mode, 0x01, 0x02].map
            (byteLatches (s.func.getLsbD 4) .low)).flatten

/-- R142 (c), R220: the waits of `build` in order, with the pre-step and without it, for every N_RELIABLE (log entry 3). -/
def Obligations.BuildWaitsStandAtTheProtocolPoints : Prop :=
  ∀ s : State, s.phase = .cfg →
    ∃ t, exec .build s = .next t ∧
      waitsOf (newEvents s t) = List.flatten [
        match s.reliable with
          | none => []
          | some d => (List.replicate (2 * s.repeats) [.cmd, .us d]).flatten,
        [.powerup],
        if s.func.getLsbD 4 then [.cmd, .initLong, .cmd, .initLong, .cmd, .initShort] else [.initLong, .initLong, .initShort],
        [.cmd, .cmd, .cmd, .cmd, .cmd]]

/-- R142 (d), (e): registers as configured, RS and EN (and RW if bound) low, and the data lines at the last frame of `0x02`. -/
def Obligations.BuildLeavesTheLinesAtTheLastFrame : Prop :=
  ∀ s : State, s.phase = .cfg → s.wired →
    ∃ t, exec .build s = .next t ∧
      t.func = s.func ∧ t.ctrl = s.ctrl ∧ t.mode = s.mode ∧ t.cols = s.cols ∧ t.offsets = s.offsets ∧
      t.level.rs = some .low ∧ t.level.en = some .low ∧ (s.bound.rw = true → t.level.rw = some .low) ∧
      t.level.bl = s.level.bl ∧
      t.level.d7 = some .low ∧ t.level.d6 = some .low ∧
      (if s.func.getLsbD 4 then
        t.level.d5 = some .low ∧ t.level.d4 = some .low ∧ t.level.d3 = some .low ∧ t.level.d2 = some .low ∧
          t.level.d1 = some .high ∧ t.level.d0 = some .low
      else
        t.level.d5 = some .high ∧ t.level.d4 = some .low ∧ t.level.d3 = s.level.d3 ∧ t.level.d2 = s.level.d2 ∧
          t.level.d1 = s.level.d1 ∧ t.level.d0 = s.level.d0)

/-! ## Transmission and control: completion, result and frame -/

/-- R95 to R99, R101.  The place of the delays (D13) and the RW rule (D12) are the spec's decisions. -/
def Obligations.SendTransmitsOneByte : Prop :=
  ∀ (s : State) (b : Byte), s.phase = .rdy →
    exec (.send b false) s = .next (s.performed (s.commandScript b)) ∧
    exec (.send b true) s = .next (s.performed (s.dataScript b)) ∧
    exec (.command b) s = .next (s.performed (s.commandScript b)) ∧
    exec (.write b) s = .next (s.performed (s.dataScript b))

/-- R102: with EN bound and not left high, `send` produces two latches in 4-bit mode and one in 8-bit mode, whatever the byte. -/
def Obligations.SendMakesTwoCyclesOrOne : Prop :=
  ∀ (s : State) (b : Byte) (rs : Bool), s.phase = .rdy → s.bound.en = true → s.level.en ≠ some .high →
    ∃ t, exec (.send b rs) s = .next t ∧
      (latches s.width s.level (newEvents s t)).length = if s.func.getLsbD 4 then 1 else 2

/-- R62, R43, R96: with every line wired the LCD latches RS with the byte, or with its high and then its low nibble. -/
def Obligations.SendLatchesTheByte : Prop :=
  ∀ (s : State) (b : Byte) (rs : Bool), s.phase = .rdy → s.wired → s.level.en ≠ some .high →
    ∃ t, exec (.send b rs) s = .next t ∧
      latches s.width s.level (newEvents s t) =
        byteLatches (s.func.getLsbD 4) (if rs then .high else .low) b

/-- R150, R151 (opcode values: D5). -/
def Obligations.ClearAndHomeSendTheirCommand : Prop :=
  ∀ s : State, s.phase = .rdy →
    exec .clear s = .next (s.performed (s.commandScript 0x01)) ∧
    exec .home s = .next (s.performed (s.commandScript 0x02))

/-- R152, 90_conflicts.md C1: the row is clamped to the last valid row of the line mode, the column is not clamped, the sum wraps
modulo 256 (spec's decision D18), and the byte is ORed under the opcode bit. -/
def Obligations.SetPositionSendsTheClampedAddress : Prop :=
  ∀ (s : State) (col row : Byte), s.phase = .rdy →
    exec (.setPosition col row) s = .next (s.performed (s.commandScript (0x80 ||| BitVec.ofNat 8
      ((match min row.toNat
          (if s.func.getLsbD 3 then (if s.func.getLsbD 2 then 3 else 1) else 0) with
        | 0 => s.offsets.row0
        | 1 => s.offsets.row1
        | 2 => s.offsets.row2
        | _ => s.offsets.row3).toNat + col.toNat))))

/-- R153 (the display moves: spec's decision D19): `n` identical commands, and nothing at all for `n = 0`. -/
def Obligations.ScrollSendsExactlyNShiftCommands : Prop :=
  ∀ (s : State) (n : Byte), s.phase = .rdy →
    exec (.scroll .left n) s = .next (s.performed (List.replicate n.toNat (s.commandScript 0x18)).flatten) ∧
    exec (.scroll .right n) s = .next (s.performed (List.replicate n.toNat (s.commandScript 0x1C)).flatten) ∧
    exec (.scroll .left 0) s = .next s ∧ exec (.scroll .right 0) s = .next s

/-- R154 to R159, R167: one bit of `ctrl` changes, and the whole new register is sent in the same operation (bit positions: D6). -/
def Obligations.ControlTogglesWriteOneBitAndPush : Prop :=
  ∀ s : State, s.phase = .rdy →
    let push (v : Byte) : State := { s with ctrl := v }.performed (s.commandScript (0x08 ||| v))
    exec .displayOn s = .next (push (s.ctrl ||| 0x04)) ∧ exec .displayOff s = .next (push (s.ctrl &&& ~~~0x04)) ∧
    exec .cursorOn s = .next (push (s.ctrl ||| 0x02)) ∧ exec .cursorOff s = .next (push (s.ctrl &&& ~~~0x02)) ∧
    exec .blinkOn s = .next (push (s.ctrl ||| 0x01)) ∧ exec .blinkOff s = .next (push (s.ctrl &&& ~~~0x01))

/-- R160 to R162, R167 (bit positions: D6). -/
def Obligations.ModeTogglesWriteOneBitAndPush : Prop :=
  ∀ s : State, s.phase = .rdy →
    let push (v : Byte) : State := { s with mode := v }.performed (s.commandScript (0x04 ||| v))
    exec .autoscrollOn s = .next (push (s.mode ||| 0x01)) ∧ exec .autoscrollOff s = .next (push (s.mode &&& ~~~0x01)) ∧
    exec (.setLayout .leftToRight) s = .next (push ((s.mode &&& ~~~0x02) ||| 0x02)) ∧
    exec (.setLayout .rightToLeft) s = .next (push (s.mode &&& ~~~0x02))

/-- R167, 90_conflicts.md C6: on then off leaves the bit clear and sends exactly two commands, whatever the bit was. -/
def Obligations.ToggleOnThenOffClearsTheBit : Prop :=
  ∀ s : State, s.phase = .rdy →
    (∃ t u, exec .displayOn s = .next t ∧ exec .displayOff t = .next u ∧ u.ctrl = s.ctrl &&& ~~~0x04 ∧
      (s.ctrl.getLsbD 2 = false → u.ctrl = s.ctrl) ∧ (waitsOf (newEvents s u)) = [.cmd, .cmd]) ∧
    (∃ t u, exec .cursorOn s = .next t ∧ exec .cursorOff t = .next u ∧ u.ctrl = s.ctrl &&& ~~~0x02 ∧
      (s.ctrl.getLsbD 1 = false → u.ctrl = s.ctrl) ∧ (waitsOf (newEvents s u)) = [.cmd, .cmd]) ∧
    (∃ t u, exec .blinkOn s = .next t ∧ exec .blinkOff t = .next u ∧ u.ctrl = s.ctrl &&& ~~~0x01 ∧
      (s.ctrl.getLsbD 0 = false → u.ctrl = s.ctrl) ∧ (waitsOf (newEvents s u)) = [.cmd, .cmd]) ∧
    (∃ t u, exec .autoscrollOn s = .next t ∧ exec .autoscrollOff t = .next u ∧ u.mode = s.mode &&& ~~~0x01 ∧
      (s.mode.getLsbD 0 = false → u.mode = s.mode) ∧ (waitsOf (newEvents s u)) = [.cmd, .cmd])

/-- R163 (the CGRAM address is the spec's decision D20): one command, then the rows as data, and nothing after them. -/
def Obligations.SetCharacterSendsTheAddressThenTheRows : Prop :=
  ∀ (s : State) (k : Byte) (g : List Byte), s.phase = .rdy →
    exec (.setCharacter k g) s = .next (s.performed
      (s.commandScript (0x40 ||| BitVec.ofNat 8 (k.toNat % 8 * 8)) ++ (g.map s.dataScript).flatten))

/-- R164 (truncation is the spec's decision D21): one data write per character, in order. -/
def Obligations.PrintSendsEachCodeAsOneByte : Prop :=
  ∀ (s : State) (t : List Nat), s.phase = .rdy →
    exec (.print t) s = .next (s.performed (t.map fun c => s.dataScript (BitVec.ofNat 8 (c % 256))).flatten)

/-- R165, R166 (the operations are the spec's decision D22). -/
def Obligations.BacklightDrivesItsLineOrRecordsIt : Prop :=
  ∀ s : State, s.phase = .rdy →
    (s.bound.bl = true →
      exec .backlightOn s = .next { s with
        trace := s.trace ++ [.drive .bl .high], level := { s.level with bl := some .high } } ∧
      exec .backlightOff s = .next { s with
        trace := s.trace ++ [.drive .bl .low], level := { s.level with bl := some .low } }) ∧
    (s.bound.bl = false →
      exec .backlightOn s = .next { s with err := .missingPin .bl } ∧
      exec .backlightOff s = .next { s with err := .missingPin .bl })

/-- R168, R170 to R177: in both phases, no event, no change of the block's state, the value returned. -/
def Obligations.AccessorsReturnTheirFieldAndChangeNothing : Prop :=
  ∀ s : State,
    let ret (a : Answer) : Host.Outcome State Fault Refusal := .next { s with answers := s.answers ++ [a] }
    exec .getDisplay s = ret (.bool (s.ctrl.getLsbD 2)) ∧ exec .getCursor s = ret (.bool (s.ctrl.getLsbD 1)) ∧
    exec .getBlink s = ret (.bool (s.ctrl.getLsbD 0)) ∧ exec .getAutoscroll s = ret (.bool (s.mode.getLsbD 0)) ∧
    exec .getLayout s = ret (.layout (if s.mode.getLsbD 1 then .leftToRight else .rightToLeft)) ∧
    exec .size s = ret (.size (if s.func.getLsbD 2 then .dots5x10 else .dots5x8)) ∧
    exec .busWidth s = ret (.width (if s.func.getLsbD 4 then 8 else 4)) ∧
    exec .error s = ret (.error s.err)

/-- R16, R169: what `lines()` reads, the `01` code included, and the source's round trip for all three values (E8). -/
def Obligations.LinesReadsBackWhatWithLinesSet : Prop :=
  (∀ s : State, exec .lines s = .next { s with answers := s.answers ++ [.lines
    (if s.func.getLsbD 3 then (if s.func.getLsbD 2 then .fourLines else .twoLines) else .oneLine)] }) ∧
  ∀ (s : State) (v : LineCount), s.phase = .cfg →
    ∃ t, exec (.withLines v) s = .next t ∧ exec .lines t = .next { t with answers := t.answers ++ [.lines v] }

/-! ## Phases, refusal, step and fetch -/

/-- R178, R199, R203, R204: an instruction completes exactly when its phase allows it; otherwise it is refused for phase.  That
there is a distinct refusal is the spec's decision D23. -/
def Obligations.OperationsCompleteExactlyInTheirPhase : Prop :=
  ∀ (i : Instr) (s : State),
    ((phaseNeeded i = none ∨ phaseNeeded i = some s.phase) → ∃ t, exec i s = .next t) ∧
    (∀ p : Phase, phaseNeeded i = some p → s.phase ≠ p → exec i s = .refused .outOfPhase)

/-- R2, R51, R205: a step runs the oldest request on the state without it, and leaves an idle machine as it is.  Two things here are
the model's choice (log entry 1) and no rule's: the request list, its form of the host side, and the refusal of a request that is
no operation of the spec (R78: a glyph has exactly 8 rows, and no rule says what another does). -/
def Obligations.StepRunsTheOldestRequest : Prop :=
  ∀ s : State,
    (s.pending = [] → step s = .next s) ∧
    (∀ (i : Instr) (rest : List Instr), s.pending = i :: rest →
      (i.wellFormed = true → step s = exec i { s with pending := rest }) ∧
      (i.wellFormed = false → step s = .refused .malformedRequest))

/-- A placed table word: the next step runs the wire item it names on the state as it was.  The placing and the reading of a bare
word are the model's (log entries 1, 6); that no word names a host operation is R80. -/
def Obligations.FetchWordIsRunByTheNextStep : Prop :=
  ∀ (s : State) (nbits w : Nat) (i : Instr), decodeTableWord nbits w = some i →
    i.wellFormed = true ∧ i.isHost = false ∧ step (s.withFetchWord nbits w) = exec i s

/-- R24 (spec's decision D23): only `build` changes the phase, and only from `CFG` to `RDY`. -/
def Obligations.OnlyBuildLeavesConfiguration : Prop :=
  ∀ (i : Instr) (s t : State), exec i s = .next t →
    (i = .build → s.phase = .cfg ∧ t.phase = .rdy) ∧ (i ≠ .build → t.phase = s.phase)

/-- R12, R31 (c): in phase `RDY` the bindings and the configuration are frozen; in every phase a bound slot stays bound.  That the
construction parameter N_RELIABLE never changes is the model's (log entry 3: the parameter stands in State). -/
def Obligations.ReadyFreezesTheConfiguration : Prop :=
  ∀ s t : State, step s = .next t →
    (s.phase = .rdy → t.phase = .rdy ∧ t.bound = s.bound ∧ t.func = s.func ∧ t.cols = s.cols ∧ t.offsets = s.offsets ∧
      t.reliable = s.reliable) ∧
    (∀ p : Slot, s.bound.get p = true → t.bound.get p = true) ∧
    t.repeats = s.repeats

/-! ## Errors -/

/-- R193, R194: recording writes `err` and nothing else, and an operation with unbound slots goes on to its end: what it emits is
what it would emit with every slot bound, less the writes of the unbound ones, and its register updates are the same. -/
def Obligations.RecordingWritesOnlyErrAndGoesOn : Prop :=
  (∀ (c : ErrorCode) (s : State), raise c s = { s with err := c }) ∧
  ∀ (i : Instr) (s t u : State), exec i s = .next t → exec i { s with bound := PerSlot.fill true } = .next u →
    newEvents s t = (newEvents s u).filter (fun e =>
      match e with
      | .drive p _ => s.bound.get p
      | .wait _ => true) ∧
    t.phase = u.phase ∧ t.func = u.func ∧ t.ctrl = u.ctrl ∧ t.mode = u.mode ∧ t.cols = u.cols ∧ t.offsets = u.offsets ∧
      t.reliable = u.reliable

/-- R195: once not `None`, `err` stays not `None`; reading it leaves it; a later cause simply replaces it. -/
def Obligations.ErrorIsNeverCleared : Prop :=
  (∀ s t : State, step s = .next t → s.err ≠ .noError → t.err ≠ .noError) ∧
    (∀ s : State, ∃ t, exec .error s = .next t ∧ t.err = s.err) ∧
    ∀ (c : ErrorCode) (s : State), (raise c s).err = c

/-- R196, R228: which error a transmission leaves: EN if unbound, else the lowest-numbered unbound active data line, else RS,
else what was there. -/
def Obligations.LastUnboundSlotIsTheVisibleError : Prop :=
  ∀ (s : State) (b : Byte) (rs : Bool), s.phase = .rdy →
    ∃ t, exec (.send b rs) s = .next t ∧
      t.err =
        if s.bound.en = false then .missingPin .en
        else
          match s.activeData.find? fun p => !s.bound.get p with
          | some p => .missingPin p
          | none => if s.bound.rs = false then .missingPin .rs else s.err

/-- R203, R191, vector X6: with every line wired, no instruction records anything, but for a backlight operation without its line. -/
def Obligations.WiredMachineRecordsNoError : Prop :=
  ∀ (i : Instr) (s t : State), s.wired → exec i s = .next t →
    (i = .backlightOn ∨ i = .backlightOff → s.bound.bl = true) → t.err = s.err

/-- No operation reads `err` (R198), the levels (R13, spec's decision D10) or the trace (R27).  That none reads `answers` is the
model's choice (log entry 4: the field is the model's own).  Two states that differ only there run alike, emit the same events, and
return the same values but for `error()`. -/
def Obligations.NoOperationReadsErrLevelOrOutputs : Prop :=
  ∀ (i : Instr) (s t : State), s.sameButObserved t →
    (∀ s' : State, exec i s = .next s' → ∃ (t' : State) (l : List Event), exec i t = .next t' ∧ s'.sameButObserved t' ∧
      s'.trace = s.trace ++ l ∧ t'.trace = t.trace ++ l ∧
      (i ≠ .error → ∃ a : List Answer, s'.answers = s.answers ++ a ∧ t'.answers = t.answers ++ a)) ∧
    (∀ r : Refusal, exec i s = .refused r → exec i t = .refused r)

/-- R190 (the numbers are the spec's decision D11): the code of every value, a missing pin's being the slot index of R11; the
fourteen codes are distinct, and `0xD`, `0xE` are never a code. -/
def Obligations.ErrorCodesAreDistinct : Prop :=
  (∀ c d : ErrorCode, c.code = d.code → c = d) ∧ (∀ c : ErrorCode, c.code ≠ 0xD ∧ c.code ≠ 0xE) ∧
    ErrorCode.noError.code = 0xF ∧ ErrorCode.invalidBus.code = 0xC ∧
    (∀ p : Slot, (ErrorCode.missingPin p).code = BitVec.ofNat 4 (slotIndex p)) ∧
    [Slot.rs, .en, .rw, .d0, .d1, .d2, .d3, .d4, .d5, .d6, .d7, .bl].map slotIndex = [0, 1, 2, 3, 4, 5, 6, 7, 8, 9, 10, 11]

/-! ## Invariants -/

/-- R31 (a), (b), (d), R13, R41: at every construction whose registers have no reserved bit set, `BOUND0` and `N_RELIABLE` whatever
they are. -/
def Obligations.ConstructionMeetsTheInvariant : Prop :=
  (∀ (bound0 : List Slot) (func0 ctrl0 mode0 : Byte) (n : Nat),
    func0 &&& ~~~0x1C = 0 → ctrl0 &&& ~~~0x07 = 0 → mode0 &&& ~~~0x03 = 0 →
      (State.construct bound0 func0 ctrl0 mode0 n).Inv ∧ (State.construct bound0 func0 ctrl0 mode0 n).HostInv ∧
        (State.construct bound0 func0 ctrl0 mode0 n).repeats = n) ∧
    State.reset.Inv ∧ State.reset.HostInv

/-- R20, R22, R31 (a), (b), (d), R13, and the idle lines: EN low after each pulse (R92), RW never high (R41, R97).  Kept by every
step, whatever is requested. -/
def Obligations.StepKeepsTheInvariant : Prop :=
  ∀ s t : State, s.Inv → step s = .next t → t.Inv

/-- R31 (d), (e): with host operations only, nothing is driven and no error recorded before `build`; kept by every step. -/
def Obligations.StepKeepsTheHostInvariant : Prop :=
  ∀ s t : State, s.HostInv → step s = .next t → t.HostInv

/-- R92, R93 and item 1 of 95_test_vectors.md section 4: no event ever stands inside an enable pulse; kept by every step. -/
def Obligations.StepKeepsPulsesWhole : Prop :=
  ∀ s t : State, pulsesWhole s.trace = true → step s = .next t → pulsesWhole t.trace = true

/-- R9, R41, R47, R51, R90: a step only appends to the trace, and what it appends is waits and writes of slots bound before it,
never RW high. -/
def Obligations.StepAppendsOnlyBoundWrites : Prop :=
  ∀ s t : State, step s = .next t →
    ∃ l : List Event, t.trace = s.trace ++ l ∧ .drive .rw .high ∉ l ∧
      ∀ e ∈ l, match e with
        | .drive p _ => s.bound.get p = true
        | .wait _ => True

/-! ## Encodings -/

/-- R63, R72, R73, for every wire item with every operand value; R80: a host operation has no code, and no code is one. -/
def Obligations.DecodeEncodeRoundTrip : Prop :=
  ∀ i : Instr,
    (i.isHost = false → ∃ c, encode i = some c ∧ decode c = .ok i) ∧
    (i.isHost = true → encode i = none ∧ ∀ c : Code, decode c ≠ .ok i)

/-- The other direction, over R63, R72, R73 and R76(b): a code is accepted only as the one instruction it is the code of, and that
instruction is well formed.  That a code is a format with a word is the model's form (log entry 6). -/
def Obligations.AcceptedCodeIsCanonical : Prop :=
  ∀ (c : Code) (i : Instr), decode c = .ok i → encode i = some c ∧ i.wellFormed = true

/-- R63 to R73: words written out bit by bit from the spec's tables, and two bytes without a meaning (R76(b)).  The last line, how a
bare table word is read, is the model's (log entry 6), and that `0x11`, the key of `command`, names nothing is R80. -/
def Obligations.WrittenOutWordsDecode : Prop :=
  decode ⟨.cmd, 0b00000001⟩ = .ok .clearDisplay ∧ decode ⟨.cmd, 0b00000010⟩ = .ok .returnHome ∧
    decode ⟨.cmd, 0b00000110⟩ = .ok (.entryModeSet true false) ∧
    decode ⟨.cmd, 0b00001101⟩ = .ok (.displayControl true false true) ∧
    decode ⟨.cmd, 0b00011000⟩ = .ok (.cursorDisplayShift true false) ∧
    decode ⟨.cmd, 0b00111000⟩ = .ok (.functionSet true true false) ∧
    decode ⟨.cmd, 0b01001000⟩ = .ok (.setCgramAddr 0b001000) ∧
    decode ⟨.cmd, 0b10001000⟩ = .ok (.setDdramAddr 0b0001000) ∧
    decode ⟨.cmd, 0b00010001⟩ = .error (.noCommand 0x11) ∧ decode ⟨.cmd, 0b00100010⟩ = .error (.noCommand 0x22) ∧
    decode ⟨.data, 0b01001000⟩ = .ok (.dataWrite 0x48) ∧
    decode ⟨.nib, 0b0011⟩ = .ok .rawNibbleSync ∧ decode ⟨.nib, 0b0010⟩ = .ok .rawNibbleCommit ∧
    decodeTableWord 8 0x88 = some (.setDdramAddr 8) ∧ decodeTableWord 4 0x3 = some .rawNibbleSync ∧ decodeTableWord 8 0x11 = none

/-- R81: the `CMD` rows of the table, as `(match, mask)`, are pairwise disjoint, and a byte is a command exactly when it fits one
of them (R76(b): the other bytes have no meaning assigned). -/
def Obligations.CommandRowsAreDisjointAndComplete : Prop :=
  let rows : List (Byte × Byte) := [(0x01, 0xFF), (0x02, 0xFF), (0x04, 0xFC), (0x08, 0xF8), (0x10, 0xF3), (0x20, 0xE3),
    (0x40, 0xC0), (0x80, 0x80)]
  ∀ b : Byte, (rows.filter fun r => b &&& r.2 = r.1).length ≤ 1 ∧
    ((∃ i, decode ⟨.cmd, b⟩ = .ok i) ↔ ∃ r ∈ rows, b &&& r.2 = r.1)

/-- R3, R79: each host operation that transmits in phase `RDY` is a run of wire items, started on the state with its register
written: commands, data bytes, and the CGRAM address item then the data items of the rows, in order.  The address of `set_position`
is the low 7 bits of row base plus column (R71, R152).  Opcodes and bits are the spec's decisions D5, D6, D18 to D21; that a
wire item needs no phase is the model's choice (log entry 5).  `reservedClear` is the invariant of R20. -/
def Obligations.HostOperationsExpandIntoWireItems : Prop :=
  ∀ s : State, s.phase = .rdy → s.reservedClear →
    exec .clear s = exec .clearDisplay s ∧ exec .home s = exec .returnHome s ∧
    (∀ b : Byte, exec (.write b) s = exec (.dataWrite b) s ∧ exec (.send b true) s = exec (.dataWrite b) s) ∧
    (∀ (b : Byte) (i : Instr), decode ⟨.cmd, b⟩ = .ok i →
      exec (.command b) s = exec i s ∧ exec (.send b false) s = exec i s) ∧
    (∀ t : List Nat, exec (.print t) s = runAll (t.map fun c => .dataWrite (BitVec.ofNat 8 (c % 256))) s) ∧
    (∀ col row : Byte,
      let base : Byte :=
        match min row.toNat (if s.func.getLsbD 3 then (if s.func.getLsbD 2 then 3 else 1) else 0) with
        | 0 => s.offsets.row0
        | 1 => s.offsets.row1
        | 2 => s.offsets.row2
        | _ => s.offsets.row3
      exec (.setPosition col row) s = exec (.setDdramAddr (BitVec.ofNat 7 (base.toNat + col.toNat))) s) ∧
    (∀ n : Byte, exec (.scroll .left n) s = runAll (List.replicate n.toNat (.cursorDisplayShift true false)) s ∧
      exec (.scroll .right n) s = runAll (List.replicate n.toNat (.cursorDisplayShift true true)) s) ∧
    exec .displayOn s =
      exec (.displayControl true (s.ctrl.getLsbD 1) (s.ctrl.getLsbD 0)) { s with ctrl := s.ctrl ||| 0x04 } ∧
    exec .displayOff s =
      exec (.displayControl false (s.ctrl.getLsbD 1) (s.ctrl.getLsbD 0)) { s with ctrl := s.ctrl &&& ~~~0x04 } ∧
    exec .cursorOn s =
      exec (.displayControl (s.ctrl.getLsbD 2) true (s.ctrl.getLsbD 0)) { s with ctrl := s.ctrl ||| 0x02 } ∧
    exec .cursorOff s =
      exec (.displayControl (s.ctrl.getLsbD 2) false (s.ctrl.getLsbD 0)) { s with ctrl := s.ctrl &&& ~~~0x02 } ∧
    exec .blinkOn s =
      exec (.displayControl (s.ctrl.getLsbD 2) (s.ctrl.getLsbD 1) true) { s with ctrl := s.ctrl ||| 0x01 } ∧
    exec .blinkOff s =
      exec (.displayControl (s.ctrl.getLsbD 2) (s.ctrl.getLsbD 1) false) { s with ctrl := s.ctrl &&& ~~~0x01 } ∧
    exec .autoscrollOn s = exec (.entryModeSet (s.mode.getLsbD 1) true) { s with mode := s.mode ||| 0x01 } ∧
    exec .autoscrollOff s = exec (.entryModeSet (s.mode.getLsbD 1) false) { s with mode := s.mode &&& ~~~0x01 } ∧
    exec (.setLayout .leftToRight) s =
      exec (.entryModeSet true (s.mode.getLsbD 0)) { s with mode := (s.mode &&& ~~~0x02) ||| 0x02 } ∧
    exec (.setLayout .rightToLeft) s =
      exec (.entryModeSet false (s.mode.getLsbD 0)) { s with mode := s.mode &&& ~~~0x02 } ∧
    (∀ (k : Byte) (g : List Byte), exec (.setCharacter k g) s =
      runAll (.setCgramAddr (BitVec.ofNat 6 (k.toNat % 8 * 8)) :: g.map .dataWrite) s)

/-! ## Time -/

/-- R235, R98: each operation that transmits in phase `RDY` completes, and its waits sum to its least time from the symbolic
durations, whatever is bound.  Waits add (R9). -/
def Obligations.OperationsTakeTheirLeastTime : Prop :=
  ∀ s : State, s.phase = .rdy →
    let takes (i : Instr) (n : Nat) : Prop := ∃ t, exec i s = .next t ∧ leastTime (newEvents s t) = n
    (∀ i ∈ [Instr.clear, .home, .displayOn, .displayOff, .cursorOn, .cursorOff, .blinkOn, .blinkOff, .autoscrollOn,
      .autoscrollOff, .setLayout .leftToRight, .setLayout .rightToLeft], takes i Config.tCmd) ∧
    (∀ col row : Byte, takes (.setPosition col row) Config.tCmd) ∧
    (∀ b : Byte, takes (.command b) Config.tCmd ∧ takes (.send b false) Config.tCmd ∧
      takes (.write b) Config.tChr ∧ takes (.send b true) Config.tChr) ∧
    (∀ l : List Nat, takes (.print l) (l.length * Config.tChr)) ∧
    (∀ (d : Dir) (n : Byte), takes (.scroll d n) (n.toNat * Config.tCmd)) ∧
    (∀ (k : Byte) (g : List Byte), takes (.setCharacter k g) (Config.tCmd + g.length * Config.tChr))

/-- R235, R218: the least time of `build` in both widths, with and without the pre-step, for every N_RELIABLE (log entry 3). -/
def Obligations.BuildTakesItsLeastTime : Prop :=
  ∀ s t : State, exec .build s = .next t →
    leastTime (newEvents s t) =
      (match s.reliable with
        | none => 0
        | some d => s.repeats * 2 * (Config.tCmd + d))
      + Config.tPowerup + 2 * Config.tInitLong + Config.tInitShort
      + (if s.func.getLsbD 4 then 8 else 5) * Config.tCmd

/-! ## Pseudo-operations -/

/-- R79, row by row (the spec's own inference from its rules): each operation is its expansion into other host operations, with the
same outcome from every state, a refusal for phase being the same refusal.  Opcodes and bits are the spec's decisions D5, D6, D18 to
D21, D26. -/
def Obligations.PseudoOperationsAreTheirExpansions : Prop :=
  ∀ s : State,
    let pushCtrl (v : Byte) : Host.Outcome State Fault Refusal := exec (.command (0x08 ||| v)) { s with ctrl := v }
    let pushMode (v : Byte) : Host.Outcome State Fault Refusal := exec (.command (0x04 ||| v)) { s with mode := v }
    (∀ b : Byte, exec (.command b) s = exec (.send b false) s ∧ exec (.write b) s = exec (.send b true) s) ∧
    exec .clear s = exec (.command 0x01) s ∧ exec .home s = exec (.command 0x02) s ∧
    (∀ col row : Byte, exec (.setPosition col row) s = exec (.command (0x80 ||| position s.func s.offsets col row)) s) ∧
    exec .displayOn s = pushCtrl (s.ctrl ||| 0x04) ∧ exec .displayOff s = pushCtrl (s.ctrl &&& ~~~0x04) ∧
    exec .cursorOn s = pushCtrl (s.ctrl ||| 0x02) ∧ exec .cursorOff s = pushCtrl (s.ctrl &&& ~~~0x02) ∧
    exec .blinkOn s = pushCtrl (s.ctrl ||| 0x01) ∧ exec .blinkOff s = pushCtrl (s.ctrl &&& ~~~0x01) ∧
    exec .autoscrollOn s = pushMode (s.mode ||| 0x01) ∧ exec .autoscrollOff s = pushMode (s.mode &&& ~~~0x01) ∧
    exec (.setLayout .leftToRight) s = pushMode ((s.mode &&& ~~~0x02) ||| 0x02) ∧
    exec (.setLayout .rightToLeft) s = pushMode (s.mode &&& ~~~0x02) ∧
    exec .withRw s = exec (.bind .rw) s ∧ exec .withBacklight s = exec (.bind .bl) s ∧
    exec .withHalfBus s =
      runAll [.bind .d4, .bind .d5, .bind .d6, .bind .d7] { s with func := s.func &&& ~~~0x10 } ∧
    exec .withFullBus s =
      runAll [.bind .d0, .bind .d1, .bind .d2, .bind .d3, .bind .d4, .bind .d5, .bind .d6, .bind .d7]
        { s with func := s.func ||| 0x10 } ∧
    (s.phase = .rdy →
      (∀ t : List Nat, exec (.print t) s = runAll (t.map fun c => .write (BitVec.ofNat 8 (c % 256))) s) ∧
      (∀ n : Byte, exec (.scroll .left n) s = runAll (List.replicate n.toNat (.command 0x18)) s ∧
        exec (.scroll .right n) s = runAll (List.replicate n.toNat (.command 0x1C)) s) ∧
      (∀ (k : Byte) (g : List Byte), exec (.setCharacter k g) s =
        runAll (.command (0x40 ||| ((k &&& 0x07) <<< 3)) :: g.map .write) s))
end

