-- ==== Sys2Proof/Laws/Decode.lean ====
section
/-! SUPPORT. What decoding accepts, said once in both directions, so that no proof about codes unfolds the decoder. -/

namespace Sys2Proof

/-! ## Commands -/

@[simp] theorem decodeCommand_entryModeSet (id s : Bool) :
    decodeCommand (Encoding.entryModeSet id s) = .ok (.entryModeSet id s) := by cases id <;> cases s <;> rfl
@[simp] theorem decodeCommand_displayControl (d c b : Bool) :
    decodeCommand (Encoding.displayControl d c b) = .ok (.displayControl d c b) := by cases d <;> cases c <;> cases b <;> rfl
@[simp] theorem decodeCommand_cursorDisplayShift (sc rl : Bool) :
    decodeCommand (Encoding.cursorDisplayShift sc rl) = .ok (.cursorDisplayShift sc rl) := by cases sc <;> cases rl <;> rfl
@[simp] theorem decodeCommand_functionSet (dl n f : Bool) :
    decodeCommand (Encoding.functionSet dl n f) = .ok (.functionSet dl n f) := by cases dl <;> cases n <;> cases f <;> rfl

/-- An accepted code decodes to its instruction. -/
theorem accepted_eq_some {r : Except Reject Instr} {i : Instr} (h : accepted r = some i) : r = .ok i := by
  unfold accepted at h
  split at h
  · cases h; rfl
  · cases h

/-- Everything a table word can name: a command or a raw nibble. -/
theorem decodeTableWord_cases {nbits w : Nat} {i : Instr} (h : decodeTableWord nbits w = some i) :
    decode ⟨.cmd, BitVec.ofNat 8 w⟩ = .ok i ∨ decode ⟨.nib, BitVec.ofNat 8 w⟩ = .ok i := by
  unfold decodeTableWord at h
  split at h
  · exact .inr (accepted_eq_some h)
  · split at h
    · split at h
      · rename_i hc
        cases h
        exact .inl (accepted_eq_some hc)
      · exact .inr (accepted_eq_some h)
    · cases h

/-- No code decodes to a host operation (R80). -/
theorem decode_ok_isHost {c : Code} {i : Instr} (h : decode c = .ok i) : i.isHost = false := by
  obtain ⟨f, w⟩ := c
  cases f
  case cmd =>
    revert i
    have key : ∀ w : Byte, (match decodeCommand w with | .ok i => i.isHost | .error _ => false) = false := by decide
    intro i h
    have hk := key w
    rw [show decodeCommand w = .ok i from h] at hk
    exact hk
  case data => cases h; rfl
  case nib =>
    unfold decode decodeNibble at h
    dsimp only at h
    split at h
    · cases h; rfl
    · split at h <;> cases h
      rfl
  case host => cases h

end Sys2Proof
end

