-- ==== Sys2Proof/Laws/State.lean ====
section
/-! SUPPORT. One lemma per field per update of `State`, each true by definition, so that no later proof unfolds a record update;
and the laws of per-slot storage. -/

namespace Sys2Proof.Machine

/-! ### emit -/

@[simp] theorem State.emit_phase (e : Event) (s : State) : (s.emit e).phase = s.phase := rfl
@[simp] theorem State.emit_bound (e : Event) (s : State) : (s.emit e).bound = s.bound := rfl
@[simp] theorem State.emit_level (e : Event) (s : State) : (s.emit e).level = s.level := rfl
@[simp] theorem State.emit_func (e : Event) (s : State) : (s.emit e).func = s.func := rfl
@[simp] theorem State.emit_ctrl (e : Event) (s : State) : (s.emit e).ctrl = s.ctrl := rfl
@[simp] theorem State.emit_mode (e : Event) (s : State) : (s.emit e).mode = s.mode := rfl
@[simp] theorem State.emit_cols (e : Event) (s : State) : (s.emit e).cols = s.cols := rfl
@[simp] theorem State.emit_offsets (e : Event) (s : State) : (s.emit e).offsets = s.offsets := rfl
@[simp] theorem State.emit_err (e : Event) (s : State) : (s.emit e).err = s.err := rfl
@[simp] theorem State.emit_reliable (e : Event) (s : State) : (s.emit e).reliable = s.reliable := rfl
@[simp] theorem State.emit_repeats (e : Event) (s : State) : (s.emit e).repeats = s.repeats := rfl
@[simp] theorem State.emit_pending (e : Event) (s : State) : (s.emit e).pending = s.pending := rfl
@[simp] theorem State.emit_trace (e : Event) (s : State) : (s.emit e).trace = s.trace ++ [e] := rfl
@[simp] theorem State.emit_answers (e : Event) (s : State) : (s.emit e).answers = s.answers := rfl

/-! ### setLevel -/

@[simp] theorem State.setLevel_phase (p : Slot) (lv : Level) (s : State) : (s.setLevel p lv).phase = s.phase := rfl
@[simp] theorem State.setLevel_bound (p : Slot) (lv : Level) (s : State) : (s.setLevel p lv).bound = s.bound := rfl
@[simp] theorem State.setLevel_level (p : Slot) (lv : Level) (s : State) : (s.setLevel p lv).level = s.level.set p (some lv) := rfl
@[simp] theorem State.setLevel_func (p : Slot) (lv : Level) (s : State) : (s.setLevel p lv).func = s.func := rfl
@[simp] theorem State.setLevel_ctrl (p : Slot) (lv : Level) (s : State) : (s.setLevel p lv).ctrl = s.ctrl := rfl
@[simp] theorem State.setLevel_mode (p : Slot) (lv : Level) (s : State) : (s.setLevel p lv).mode = s.mode := rfl
@[simp] theorem State.setLevel_cols (p : Slot) (lv : Level) (s : State) : (s.setLevel p lv).cols = s.cols := rfl
@[simp] theorem State.setLevel_offsets (p : Slot) (lv : Level) (s : State) : (s.setLevel p lv).offsets = s.offsets := rfl
@[simp] theorem State.setLevel_err (p : Slot) (lv : Level) (s : State) : (s.setLevel p lv).err = s.err := rfl
@[simp] theorem State.setLevel_reliable (p : Slot) (lv : Level) (s : State) : (s.setLevel p lv).reliable = s.reliable := rfl
@[simp] theorem State.setLevel_repeats (p : Slot) (lv : Level) (s : State) : (s.setLevel p lv).repeats = s.repeats := rfl
@[simp] theorem State.setLevel_pending (p : Slot) (lv : Level) (s : State) : (s.setLevel p lv).pending = s.pending := rfl
@[simp] theorem State.setLevel_trace (p : Slot) (lv : Level) (s : State) : (s.setLevel p lv).trace = s.trace := rfl
@[simp] theorem State.setLevel_answers (p : Slot) (lv : Level) (s : State) : (s.setLevel p lv).answers = s.answers := rfl

/-! ### setErr -/

@[simp] theorem State.setErr_phase (c : ErrorCode) (s : State) : (s.setErr c).phase = s.phase := rfl
@[simp] theorem State.setErr_bound (c : ErrorCode) (s : State) : (s.setErr c).bound = s.bound := rfl
@[simp] theorem State.setErr_level (c : ErrorCode) (s : State) : (s.setErr c).level = s.level := rfl
@[simp] theorem State.setErr_func (c : ErrorCode) (s : State) : (s.setErr c).func = s.func := rfl
@[simp] theorem State.setErr_ctrl (c : ErrorCode) (s : State) : (s.setErr c).ctrl = s.ctrl := rfl
@[simp] theorem State.setErr_mode (c : ErrorCode) (s : State) : (s.setErr c).mode = s.mode := rfl
@[simp] theorem State.setErr_cols (c : ErrorCode) (s : State) : (s.setErr c).cols = s.cols := rfl
@[simp] theorem State.setErr_offsets (c : ErrorCode) (s : State) : (s.setErr c).offsets = s.offsets := rfl
@[simp] theorem State.setErr_err (c : ErrorCode) (s : State) : (s.setErr c).err = c := rfl
@[simp] theorem State.setErr_reliable (c : ErrorCode) (s : State) : (s.setErr c).reliable = s.reliable := rfl
@[simp] theorem State.setErr_repeats (c : ErrorCode) (s : State) : (s.setErr c).repeats = s.repeats := rfl
@[simp] theorem State.setErr_pending (c : ErrorCode) (s : State) : (s.setErr c).pending = s.pending := rfl
@[simp] theorem State.setErr_trace (c : ErrorCode) (s : State) : (s.setErr c).trace = s.trace := rfl
@[simp] theorem State.setErr_answers (c : ErrorCode) (s : State) : (s.setErr c).answers = s.answers := rfl

/-! ### bindSlot -/

@[simp] theorem State.bindSlot_phase (p : Slot) (s : State) : (s.bindSlot p).phase = s.phase := rfl
@[simp] theorem State.bindSlot_bound (p : Slot) (s : State) : (s.bindSlot p).bound = s.bound.set p true := rfl
@[simp] theorem State.bindSlot_level (p : Slot) (s : State) : (s.bindSlot p).level = s.level := rfl
@[simp] theorem State.bindSlot_func (p : Slot) (s : State) : (s.bindSlot p).func = s.func := rfl
@[simp] theorem State.bindSlot_ctrl (p : Slot) (s : State) : (s.bindSlot p).ctrl = s.ctrl := rfl
@[simp] theorem State.bindSlot_mode (p : Slot) (s : State) : (s.bindSlot p).mode = s.mode := rfl
@[simp] theorem State.bindSlot_cols (p : Slot) (s : State) : (s.bindSlot p).cols = s.cols := rfl
@[simp] theorem State.bindSlot_offsets (p : Slot) (s : State) : (s.bindSlot p).offsets = s.offsets := rfl
@[simp] theorem State.bindSlot_err (p : Slot) (s : State) : (s.bindSlot p).err = s.err := rfl
@[simp] theorem State.bindSlot_reliable (p : Slot) (s : State) : (s.bindSlot p).reliable = s.reliable := rfl
@[simp] theorem State.bindSlot_repeats (p : Slot) (s : State) : (s.bindSlot p).repeats = s.repeats := rfl
@[simp] theorem State.bindSlot_pending (p : Slot) (s : State) : (s.bindSlot p).pending = s.pending := rfl
@[simp] theorem State.bindSlot_trace (p : Slot) (s : State) : (s.bindSlot p).trace = s.trace := rfl
@[simp] theorem State.bindSlot_answers (p : Slot) (s : State) : (s.bindSlot p).answers = s.answers := rfl

/-! ### setFunc -/

@[simp] theorem State.setFunc_phase (v : Byte) (s : State) : (s.setFunc v).phase = s.phase := rfl
@[simp] theorem State.setFunc_bound (v : Byte) (s : State) : (s.setFunc v).bound = s.bound := rfl
@[simp] theorem State.setFunc_level (v : Byte) (s : State) : (s.setFunc v).level = s.level := rfl
@[simp] theorem State.setFunc_func (v : Byte) (s : State) : (s.setFunc v).func = v := rfl
@[simp] theorem State.setFunc_ctrl (v : Byte) (s : State) : (s.setFunc v).ctrl = s.ctrl := rfl
@[simp] theorem State.setFunc_mode (v : Byte) (s : State) : (s.setFunc v).mode = s.mode := rfl
@[simp] theorem State.setFunc_cols (v : Byte) (s : State) : (s.setFunc v).cols = s.cols := rfl
@[simp] theorem State.setFunc_offsets (v : Byte) (s : State) : (s.setFunc v).offsets = s.offsets := rfl
@[simp] theorem State.setFunc_err (v : Byte) (s : State) : (s.setFunc v).err = s.err := rfl
@[simp] theorem State.setFunc_reliable (v : Byte) (s : State) : (s.setFunc v).reliable = s.reliable := rfl
@[simp] theorem State.setFunc_repeats (v : Byte) (s : State) : (s.setFunc v).repeats = s.repeats := rfl
@[simp] theorem State.setFunc_pending (v : Byte) (s : State) : (s.setFunc v).pending = s.pending := rfl
@[simp] theorem State.setFunc_trace (v : Byte) (s : State) : (s.setFunc v).trace = s.trace := rfl
@[simp] theorem State.setFunc_answers (v : Byte) (s : State) : (s.setFunc v).answers = s.answers := rfl

/-! ### setCtrl -/

@[simp] theorem State.setCtrl_phase (v : Byte) (s : State) : (s.setCtrl v).phase = s.phase := rfl
@[simp] theorem State.setCtrl_bound (v : Byte) (s : State) : (s.setCtrl v).bound = s.bound := rfl
@[simp] theorem State.setCtrl_level (v : Byte) (s : State) : (s.setCtrl v).level = s.level := rfl
@[simp] theorem State.setCtrl_func (v : Byte) (s : State) : (s.setCtrl v).func = s.func := rfl
@[simp] theorem State.setCtrl_ctrl (v : Byte) (s : State) : (s.setCtrl v).ctrl = v := rfl
@[simp] theorem State.setCtrl_mode (v : Byte) (s : State) : (s.setCtrl v).mode = s.mode := rfl
@[simp] theorem State.setCtrl_cols (v : Byte) (s : State) : (s.setCtrl v).cols = s.cols := rfl
@[simp] theorem State.setCtrl_offsets (v : Byte) (s : State) : (s.setCtrl v).offsets = s.offsets := rfl
@[simp] theorem State.setCtrl_err (v : Byte) (s : State) : (s.setCtrl v).err = s.err := rfl
@[simp] theorem State.setCtrl_reliable (v : Byte) (s : State) : (s.setCtrl v).reliable = s.reliable := rfl
@[simp] theorem State.setCtrl_repeats (v : Byte) (s : State) : (s.setCtrl v).repeats = s.repeats := rfl
@[simp] theorem State.setCtrl_pending (v : Byte) (s : State) : (s.setCtrl v).pending = s.pending := rfl
@[simp] theorem State.setCtrl_trace (v : Byte) (s : State) : (s.setCtrl v).trace = s.trace := rfl
@[simp] theorem State.setCtrl_answers (v : Byte) (s : State) : (s.setCtrl v).answers = s.answers := rfl

/-! ### setMode -/

@[simp] theorem State.setMode_phase (v : Byte) (s : State) : (s.setMode v).phase = s.phase := rfl
@[simp] theorem State.setMode_bound (v : Byte) (s : State) : (s.setMode v).bound = s.bound := rfl
@[simp] theorem State.setMode_level (v : Byte) (s : State) : (s.setMode v).level = s.level := rfl
@[simp] theorem State.setMode_func (v : Byte) (s : State) : (s.setMode v).func = s.func := rfl
@[simp] theorem State.setMode_ctrl (v : Byte) (s : State) : (s.setMode v).ctrl = s.ctrl := rfl
@[simp] theorem State.setMode_mode (v : Byte) (s : State) : (s.setMode v).mode = v := rfl
@[simp] theorem State.setMode_cols (v : Byte) (s : State) : (s.setMode v).cols = s.cols := rfl
@[simp] theorem State.setMode_offsets (v : Byte) (s : State) : (s.setMode v).offsets = s.offsets := rfl
@[simp] theorem State.setMode_err (v : Byte) (s : State) : (s.setMode v).err = s.err := rfl
@[simp] theorem State.setMode_reliable (v : Byte) (s : State) : (s.setMode v).reliable = s.reliable := rfl
@[simp] theorem State.setMode_repeats (v : Byte) (s : State) : (s.setMode v).repeats = s.repeats := rfl
@[simp] theorem State.setMode_pending (v : Byte) (s : State) : (s.setMode v).pending = s.pending := rfl
@[simp] theorem State.setMode_trace (v : Byte) (s : State) : (s.setMode v).trace = s.trace := rfl
@[simp] theorem State.setMode_answers (v : Byte) (s : State) : (s.setMode v).answers = s.answers := rfl

/-! ### setCols -/

@[simp] theorem State.setCols_phase (c : Byte) (o : RowOffsets) (s : State) : (s.setCols c o).phase = s.phase := rfl
@[simp] theorem State.setCols_bound (c : Byte) (o : RowOffsets) (s : State) : (s.setCols c o).bound = s.bound := rfl
@[simp] theorem State.setCols_level (c : Byte) (o : RowOffsets) (s : State) : (s.setCols c o).level = s.level := rfl
@[simp] theorem State.setCols_func (c : Byte) (o : RowOffsets) (s : State) : (s.setCols c o).func = s.func := rfl
@[simp] theorem State.setCols_ctrl (c : Byte) (o : RowOffsets) (s : State) : (s.setCols c o).ctrl = s.ctrl := rfl
@[simp] theorem State.setCols_mode (c : Byte) (o : RowOffsets) (s : State) : (s.setCols c o).mode = s.mode := rfl
@[simp] theorem State.setCols_cols (c : Byte) (o : RowOffsets) (s : State) : (s.setCols c o).cols = c := rfl
@[simp] theorem State.setCols_offsets (c : Byte) (o : RowOffsets) (s : State) : (s.setCols c o).offsets = o := rfl
@[simp] theorem State.setCols_err (c : Byte) (o : RowOffsets) (s : State) : (s.setCols c o).err = s.err := rfl
@[simp] theorem State.setCols_reliable (c : Byte) (o : RowOffsets) (s : State) : (s.setCols c o).reliable = s.reliable := rfl
@[simp] theorem State.setCols_repeats (c : Byte) (o : RowOffsets) (s : State) : (s.setCols c o).repeats = s.repeats := rfl
@[simp] theorem State.setCols_pending (c : Byte) (o : RowOffsets) (s : State) : (s.setCols c o).pending = s.pending := rfl
@[simp] theorem State.setCols_trace (c : Byte) (o : RowOffsets) (s : State) : (s.setCols c o).trace = s.trace := rfl
@[simp] theorem State.setCols_answers (c : Byte) (o : RowOffsets) (s : State) : (s.setCols c o).answers = s.answers := rfl

/-! ### setReliable -/

@[simp] theorem State.setReliable_phase (d : Nat) (s : State) : (s.setReliable d).phase = s.phase := rfl
@[simp] theorem State.setReliable_bound (d : Nat) (s : State) : (s.setReliable d).bound = s.bound := rfl
@[simp] theorem State.setReliable_level (d : Nat) (s : State) : (s.setReliable d).level = s.level := rfl
@[simp] theorem State.setReliable_func (d : Nat) (s : State) : (s.setReliable d).func = s.func := rfl
@[simp] theorem State.setReliable_ctrl (d : Nat) (s : State) : (s.setReliable d).ctrl = s.ctrl := rfl
@[simp] theorem State.setReliable_mode (d : Nat) (s : State) : (s.setReliable d).mode = s.mode := rfl
@[simp] theorem State.setReliable_cols (d : Nat) (s : State) : (s.setReliable d).cols = s.cols := rfl
@[simp] theorem State.setReliable_offsets (d : Nat) (s : State) : (s.setReliable d).offsets = s.offsets := rfl
@[simp] theorem State.setReliable_err (d : Nat) (s : State) : (s.setReliable d).err = s.err := rfl
@[simp] theorem State.setReliable_reliable (d : Nat) (s : State) : (s.setReliable d).reliable = some d := rfl
@[simp] theorem State.setReliable_repeats (d : Nat) (s : State) : (s.setReliable d).repeats = s.repeats := rfl
@[simp] theorem State.setReliable_pending (d : Nat) (s : State) : (s.setReliable d).pending = s.pending := rfl
@[simp] theorem State.setReliable_trace (d : Nat) (s : State) : (s.setReliable d).trace = s.trace := rfl
@[simp] theorem State.setReliable_answers (d : Nat) (s : State) : (s.setReliable d).answers = s.answers := rfl

/-! ### setPhase -/

@[simp] theorem State.setPhase_phase (p : Phase) (s : State) : (s.setPhase p).phase = p := rfl
@[simp] theorem State.setPhase_bound (p : Phase) (s : State) : (s.setPhase p).bound = s.bound := rfl
@[simp] theorem State.setPhase_level (p : Phase) (s : State) : (s.setPhase p).level = s.level := rfl
@[simp] theorem State.setPhase_func (p : Phase) (s : State) : (s.setPhase p).func = s.func := rfl
@[simp] theorem State.setPhase_ctrl (p : Phase) (s : State) : (s.setPhase p).ctrl = s.ctrl := rfl
@[simp] theorem State.setPhase_mode (p : Phase) (s : State) : (s.setPhase p).mode = s.mode := rfl
@[simp] theorem State.setPhase_cols (p : Phase) (s : State) : (s.setPhase p).cols = s.cols := rfl
@[simp] theorem State.setPhase_offsets (p : Phase) (s : State) : (s.setPhase p).offsets = s.offsets := rfl
@[simp] theorem State.setPhase_err (p : Phase) (s : State) : (s.setPhase p).err = s.err := rfl
@[simp] theorem State.setPhase_reliable (p : Phase) (s : State) : (s.setPhase p).reliable = s.reliable := rfl
@[simp] theorem State.setPhase_repeats (p : Phase) (s : State) : (s.setPhase p).repeats = s.repeats := rfl
@[simp] theorem State.setPhase_pending (p : Phase) (s : State) : (s.setPhase p).pending = s.pending := rfl
@[simp] theorem State.setPhase_trace (p : Phase) (s : State) : (s.setPhase p).trace = s.trace := rfl
@[simp] theorem State.setPhase_answers (p : Phase) (s : State) : (s.setPhase p).answers = s.answers := rfl

/-! ### answer -/

@[simp] theorem State.answer_phase (a : Answer) (s : State) : (s.answer a).phase = s.phase := rfl
@[simp] theorem State.answer_bound (a : Answer) (s : State) : (s.answer a).bound = s.bound := rfl
@[simp] theorem State.answer_level (a : Answer) (s : State) : (s.answer a).level = s.level := rfl
@[simp] theorem State.answer_func (a : Answer) (s : State) : (s.answer a).func = s.func := rfl
@[simp] theorem State.answer_ctrl (a : Answer) (s : State) : (s.answer a).ctrl = s.ctrl := rfl
@[simp] theorem State.answer_mode (a : Answer) (s : State) : (s.answer a).mode = s.mode := rfl
@[simp] theorem State.answer_cols (a : Answer) (s : State) : (s.answer a).cols = s.cols := rfl
@[simp] theorem State.answer_offsets (a : Answer) (s : State) : (s.answer a).offsets = s.offsets := rfl
@[simp] theorem State.answer_err (a : Answer) (s : State) : (s.answer a).err = s.err := rfl
@[simp] theorem State.answer_reliable (a : Answer) (s : State) : (s.answer a).reliable = s.reliable := rfl
@[simp] theorem State.answer_repeats (a : Answer) (s : State) : (s.answer a).repeats = s.repeats := rfl
@[simp] theorem State.answer_pending (a : Answer) (s : State) : (s.answer a).pending = s.pending := rfl
@[simp] theorem State.answer_trace (a : Answer) (s : State) : (s.answer a).trace = s.trace := rfl
@[simp] theorem State.answer_answers (a : Answer) (s : State) : (s.answer a).answers = s.answers ++ [a] := rfl

/-! ### setPending -/

@[simp] theorem State.setPending_phase (l : List Instr) (s : State) : (s.setPending l).phase = s.phase := rfl
@[simp] theorem State.setPending_bound (l : List Instr) (s : State) : (s.setPending l).bound = s.bound := rfl
@[simp] theorem State.setPending_level (l : List Instr) (s : State) : (s.setPending l).level = s.level := rfl
@[simp] theorem State.setPending_func (l : List Instr) (s : State) : (s.setPending l).func = s.func := rfl
@[simp] theorem State.setPending_ctrl (l : List Instr) (s : State) : (s.setPending l).ctrl = s.ctrl := rfl
@[simp] theorem State.setPending_mode (l : List Instr) (s : State) : (s.setPending l).mode = s.mode := rfl
@[simp] theorem State.setPending_cols (l : List Instr) (s : State) : (s.setPending l).cols = s.cols := rfl
@[simp] theorem State.setPending_offsets (l : List Instr) (s : State) : (s.setPending l).offsets = s.offsets := rfl
@[simp] theorem State.setPending_err (l : List Instr) (s : State) : (s.setPending l).err = s.err := rfl
@[simp] theorem State.setPending_reliable (l : List Instr) (s : State) : (s.setPending l).reliable = s.reliable := rfl
@[simp] theorem State.setPending_repeats (l : List Instr) (s : State) : (s.setPending l).repeats = s.repeats := rfl
@[simp] theorem State.setPending_pending (l : List Instr) (s : State) : (s.setPending l).pending = l := rfl
@[simp] theorem State.setPending_trace (l : List Instr) (s : State) : (s.setPending l).trace = s.trace := rfl
@[simp] theorem State.setPending_answers (l : List Instr) (s : State) : (s.setPending l).answers = s.answers := rfl

/-! ### Per-slot storage -/

@[simp] theorem PerSlot.get_set {α : Type} (v : PerSlot α) (p q : Slot) (x : α) :
    (v.set p x).get q = if q = p then x else v.get q := by
  cases p <;> cases q <;> rfl

@[simp] theorem PerSlot.get_fill {α : Type} (x : α) (p : Slot) : (PerSlot.fill x).get p = x := by
  cases p <;> rfl

/-- Two storages that agree on every slot are equal. -/
theorem PerSlot.eq_of_get {α : Type} {v w : PerSlot α} (h : ∀ p, v.get p = w.get p) : v = w := by
  cases v
  cases w
  simp only [PerSlot.mk.injEq]
  exact ⟨h .rs, h .en, h .rw, h .d0, h .d1, h .d2, h .d3, h .d4, h .d5, h .d6, h .d7, h .bl⟩

@[simp] theorem PerSlot.set_rw_of_ne {α : Type} (v : PerSlot α) (p : Slot) (x : α) (h : p ≠ .rw) : (v.set p x).rw = v.rw := by
  cases p <;> first | rfl | exact absurd rfl h

/-- Binding keeps what is bound. -/
theorem PerSlot.get_set_true (v : PerSlot Bool) (p q : Slot) (h : v.get q = true) : (v.set p true).get q = true := by
  rw [PerSlot.get_set]
  split <;> simp_all

end Sys2Proof.Machine
end

