-- ==== Sys2Proof/Laws/Ops.lean ====
section
/-! SUPPORT. One lemma per shared operation that says everything the operation does, as one script performed on the state (see
`Sys2Proof.Safety`): callers cite these and unfold no primitive. -/

namespace Sys2Proof.Machine

/-! ## Scripts -/

theorem emitted_append (b : PerSlot Bool) (l m : List Event) : emitted b (l ++ m) = emitted b l ++ emitted b m :=
  List.filter_append ..

theorem missed_append (b : PerSlot Bool) (l m : List Event) : missed b (l ++ m) = missed b l ++ missed b m := by
  induction l with
  | nil => rfl
  | cons e l ih =>
    cases e with
    | drive p lv => simp only [List.cons_append, missed, ih]; split <;> rfl
    | wait d => simpa only [List.cons_append, missed] using ih

theorem levelAfter_append (lv : PerSlot (Option Level)) (l m : List Event) :
    levelAfter lv (l ++ m) = levelAfter (levelAfter lv l) m :=
  List.foldl_append ..

theorem errAfter_append (b : PerSlot Bool) (c : ErrorCode) (l m : List Event) :
    errAfter b c (l ++ m) = errAfter b (errAfter b c l) m := by
  simp only [errAfter, missed_append, List.getLast?_append]
  cases (missed b m).getLast? <;> rfl

@[simp] theorem State.performed_nil (s : State) : s.performed [] = s := by
  simp [State.performed, emitted, levelAfter, errAfter, missed]

/-- Attempting one script after another is attempting their concatenation. -/
theorem State.performed_performed (l m : List Event) (s : State) : (s.performed l).performed m = s.performed (l ++ m) := by
  simp only [State.performed, emitted_append, levelAfter_append, errAfter_append, List.append_assoc]

/-! ### What a script leaves alone -/

@[simp] theorem State.performed_phase (l : List Event) (s : State) : (s.performed l).phase = s.phase := rfl
@[simp] theorem State.performed_bound (l : List Event) (s : State) : (s.performed l).bound = s.bound := rfl
@[simp] theorem State.performed_func (l : List Event) (s : State) : (s.performed l).func = s.func := rfl
@[simp] theorem State.performed_ctrl (l : List Event) (s : State) : (s.performed l).ctrl = s.ctrl := rfl
@[simp] theorem State.performed_mode (l : List Event) (s : State) : (s.performed l).mode = s.mode := rfl
@[simp] theorem State.performed_cols (l : List Event) (s : State) : (s.performed l).cols = s.cols := rfl
@[simp] theorem State.performed_offsets (l : List Event) (s : State) : (s.performed l).offsets = s.offsets := rfl
@[simp] theorem State.performed_reliable (l : List Event) (s : State) : (s.performed l).reliable = s.reliable := rfl
@[simp] theorem State.performed_repeats (l : List Event) (s : State) : (s.performed l).repeats = s.repeats := rfl
@[simp] theorem State.performed_pending (l : List Event) (s : State) : (s.performed l).pending = s.pending := rfl
@[simp] theorem State.performed_answers (l : List Event) (s : State) : (s.performed l).answers = s.answers := rfl
@[simp] theorem State.performed_eightBit (l : List Event) (s : State) : (s.performed l).eightBit = s.eightBit := rfl
@[simp] theorem State.performed_width (l : List Event) (s : State) : (s.performed l).width = s.width := rfl
@[simp] theorem State.performed_trace (l : List Event) (s : State) : (s.performed l).trace = s.trace ++ emitted s.bound l := rfl
@[simp] theorem State.performed_level (l : List Event) (s : State) :
    (s.performed l).level = levelAfter s.level (emitted s.bound l) := rfl
@[simp] theorem State.performed_err (l : List Event) (s : State) : (s.performed l).err = errAfter s.bound s.err l := rfl
@[simp] theorem State.performed_commandScript (l : List Event) (s : State) (b : Byte) :
    (s.performed l).commandScript b = s.commandScript b := rfl
@[simp] theorem State.performed_dataScript (l : List Event) (s : State) (b : Byte) :
    (s.performed l).dataScript b = s.dataScript b := rfl

/-! ## Primitives -/

theorem drive_eq_performed (p : Slot) (lv : Level) (s : State) : drive p lv s = s.performed [.drive p lv] := by
  by_cases h : s.bound.get p = true
  · simp [drive, h, State.performed, emitted, reaches, levelAfter, errAfter, missed, State.emit, State.setLevel, applyEvent]
  · simp [drive, h, State.performed, emitted, reaches, levelAfter, errAfter, missed, raise, State.setErr]

theorem wait_eq_performed (d : Config.Duration) (s : State) : wait d s = s.performed [.wait d] := rfl

theorem pulse_eq_performed (s : State) : pulse s = s.performed [.drive .en .high, .drive .en .low] := by
  simp [pulse, drive_eq_performed, State.performed_performed]

theorem driveBit_eq_performed (p : Slot) (v : Byte) (i : Nat) (s : State) :
    driveBit p v i s = s.performed [lineEvent p v i] := by
  simp [driveBit, drive_eq_performed, lineEvent, Level.ofBool]

theorem frame4_eq_performed (v : Byte) (s : State) : frame4 v s = s.performed (frame4Script v) := by
  simp [frame4, drive_eq_performed, driveBit_eq_performed, pulse_eq_performed, State.performed_performed, frame4Script]

theorem frame8_eq_performed (v : Byte) (s : State) : frame8 v s = s.performed (frame8Script v) := by
  simp [frame8, drive_eq_performed, driveBit_eq_performed, pulse_eq_performed, State.performed_performed, frame8Script]

@[simp] theorem State.width_eq_four (s : State) : s.width = 4 ↔ s.eightBit = false := by
  cases h : s.eightBit <;> simp [State.width, h]

theorem update_eq_performed (v : Byte) (s : State) :
    update v s = s.performed (if s.eightBit then frame8Script v else frame4Script v) := by
  cases h : s.eightBit <;> simp [update, h, frame4_eq_performed, frame8_eq_performed]

theorem forceWrite_eq_performed (s : State) : forceWrite s = s.performed (rwScript s.bound.rw) := by
  cases h : s.bound.rw <;> simp [forceWrite, PerSlot.get, h, rwScript, drive_eq_performed]

theorem transferByte_eq_performed (b : Byte) (s : State) : transferByte b s = s.performed (byteScript s.eightBit b) := by
  cases h : s.eightBit <;>
    simp [transferByte, byteScript, h, update_eq_performed, State.performed_performed]

/-! ## Transmissions -/

theorem command_eq_performed (b : Byte) (s : State) : command b s = s.performed (s.commandScript b) := by
  simp [command, send, Level.ofBool, drive_eq_performed, forceWrite_eq_performed, transferByte_eq_performed,
    wait_eq_performed, State.performed_performed, State.commandScript, commandScript]

theorem write_eq_performed (b : Byte) (s : State) : write b s = s.performed (s.dataScript b) := by
  simp [write, send, Level.ofBool, drive_eq_performed, forceWrite_eq_performed, transferByte_eq_performed,
    wait_eq_performed, State.performed_performed, State.dataScript, dataScript]

theorem send_eq_performed (b : Byte) (rs : Bool) (s : State) :
    send b rs s = s.performed (if rs then s.dataScript b else s.commandScript b) := by
  cases rs
  · exact command_eq_performed b s
  · exact write_eq_performed b s

/-! ## Repetition -/

/-- Repeating an operation that performs the same script in every state it leaves performs the script repeatedly. -/
theorem times_eq_performed (n : Nat) (f : State → State) (l : List Event) (s : State)
    (h : ∀ m : List Event, f (s.performed m) = (s.performed m).performed l) :
    times n f s = s.performed (List.replicate n l).flatten := by
  suffices H : ∀ (n : Nat) (m : List Event), times n f (s.performed m) = s.performed (m ++ (List.replicate n l).flatten) by
    simpa using H n []
  intro n
  induction n with
  | zero => intro m; simp [times]
  | succ n ih => intro m; simp [times, h, State.performed_performed, ih, List.replicate_succ]

theorem writeAll_eq_performed (l : List Byte) (s : State) :
    writeAll l s = s.performed (l.map s.dataScript).flatten := by
  induction l generalizing s with
  | nil => simp [writeAll]
  | cons b l ih =>
    have h : writeAll (b :: l) s = writeAll l (write b s) := rfl
    rw [h, ih, write_eq_performed, State.performed_performed]
    rfl

/-! ## Phase check -/

theorem inPhase_eq_next {p : Phase} {s : State} (f : State → State) (h : s.phase = p) : inPhase p f s = .next (f s) := by
  simp [inPhase, h]

/-- Everything a phase check can do. -/
theorem inPhase_cases {p : Phase} {f : State → State} {s t : State} (h : inPhase p f s = .next t) :
    s.phase = p ∧ t = f s := by
  unfold inPhase at h
  split at h
  · exact ⟨‹_›, by cases h; rfl⟩
  · cases h

/-! ## The step -/

/-- Everything a step can do. -/
theorem step_cases {s t : State} (h : step s = .next t) :
    (s.pending = [] ∧ t = s) ∨
      ∃ i rest, s.pending = i :: rest ∧ i.wellFormed = true ∧ exec i (s.setPending rest) = .next t := by
  unfold step at h
  split at h
  · rename_i hp
    cases h
    exact .inl ⟨hp, rfl⟩
  · rename_i i rest hp
    split at h
    · exact .inr ⟨i, rest, hp, ‹_›, h⟩
    · cases h

end Sys2Proof.Machine
end

