-- ==== Sys2Proof/Laws/Exec.lean ====
section
/-! SUPPORT. Said once: what each instruction does.  Every instruction writes its registers (`registersAfter`), then attempts its
script (`scriptOf`); `build` then validates and enters phase `RDY`.  `exec_eq` is the equation, `exec_cases` and `exec_next` its
two directions; every claim over all instructions goes through them and unfolds no meaning. -/

namespace Sys2Proof.Machine

/-! ## `build` as a script -/

theorem sendFunction_eq_performed (s : State) : sendFunction s = s.performed (s.commandScript (0x20 ||| s.func)) :=
  command_eq_performed _ s

theorem sendControl_eq_performed (s : State) : sendControl s = s.performed (s.commandScript (0x08 ||| s.ctrl)) :=
  command_eq_performed _ s

theorem sendMode_eq_performed (s : State) : sendMode s = s.performed (s.commandScript (0x04 ||| s.mode)) :=
  command_eq_performed _ s

theorem forceLow_eq_performed (s : State) :
    forceLow s = s.performed (.drive .rs .low :: .drive .en .low :: rwScript s.bound.rw) := by
  simp [forceLow, drive_eq_performed, forceWrite_eq_performed, State.performed_performed]

theorem clearAndHome_eq_performed (s : State) :
    clearAndHome s = s.performed (s.commandScript 0x01 ++ s.commandScript 0x02) := by
  simp [clearAndHome, send_eq_performed, State.performed_performed, opClear, opHome]

theorem commitRegisters_eq_performed (s : State) : commitRegisters s = s.performed
    (s.commandScript (0x20 ||| s.func) ++ s.commandScript (0x08 ||| s.ctrl) ++ s.commandScript (0x04 ||| s.mode)) := by
  simp [commitRegisters, sendFunction_eq_performed, sendControl_eq_performed, sendMode_eq_performed,
    State.performed_performed]

theorem handshake_eq_performed (s : State) : handshake s = s.performed s.handshakeScript := by
  cases h : s.eightBit
  · simp [handshake, handshake4, h, State.handshakeScript, update_eq_performed, wait_eq_performed,
      State.performed_performed, nibbleSync, nibbleCommit]
  · simp [handshake, handshake8, h, State.handshakeScript, sendFunction_eq_performed, wait_eq_performed,
      State.performed_performed]

theorem toggleOnce_eq_performed (d : Nat) (s : State) : toggleOnce d s = s.performed
    (s.commandScript (0x08 ||| (s.ctrl ||| 0x04)) ++ [.wait (.us d)]
      ++ s.commandScript (0x08 ||| (s.ctrl &&& ~~~0x04)) ++ [.wait (.us d)]) := by
  simp [toggleOnce, send_eq_performed, wait_eq_performed, State.performed_performed, registerCommand, opDisplayControl,
    setBits, clearBits, maskDisplay]

theorem preStep_eq_performed (s : State) : preStep s = s.performed s.preScript := by
  cases h : s.reliable with
  | none => simp [preStep, State.preScript, h]
  | some d =>
    simp only [preStep, State.preScript, h]
    exact times_eq_performed _ _ _ s fun m => by rw [toggleOnce_eq_performed]; rfl

/-- Everything of `build` before validation. -/
theorem buildEvents_eq_performed (s : State) :
    (s |> preStep |> wait .powerup |> forceLow |> handshake |> commitRegisters |> clearAndHome) =
      s.performed s.buildScript := by
  have hh (l : List Event) : (s.performed l).handshakeScript = s.handshakeScript := rfl
  simp [preStep_eq_performed, wait_eq_performed, forceLow_eq_performed, handshake_eq_performed, hh,
    commitRegisters_eq_performed, clearAndHome_eq_performed, State.performed_performed, State.buildScript]

theorem buildAll_eq (s : State) : buildAll s = (validate (s.performed s.buildScript)).setPhase .rdy := by
  rw [← buildEvents_eq_performed]
  rfl

/-- Validation inspects the bus and writes nothing but `err`. -/
theorem validate_eq (s : State) : validate s = { s with err := if s.busBound then s.err else .invalidBus } := by
  have h : busPresent s = s.busBound := by
    cases h8 : s.eightBit <;>
      simp [busPresent, required, State.busBound, h8, PerSlot.get, Bool.or_assoc]
  unfold validate
  rw [h]
  cases s.busBound <;> rfl

/-! ## The general form -/

/-- The registers an instruction writes before it transmits (configuration, toggles), and the value an accessor returns. -/
def registersAfter : Instr → State → State
  | .bind p, s => s.bindSlot p
  | .withRw, s => s.bindSlot .rw
  | .withHalfBus, s => (bindAll [.d4, .d5, .d6, .d7] s).setFunc (clearBits maskWidth s.func)
  | .withFullBus, s => (bindAll [.d0, .d1, .d2, .d3, .d4, .d5, .d6, .d7] s).setFunc (setBits maskWidth s.func)
  | .withBacklight, s => s.bindSlot .bl
  | .withCols c, s => s.setCols (clampCols c) (offsetsFor (clampCols c))
  | .withSize v, s => s.setFunc (clearBits maskSize s.func ||| sizeBits v)
  | .withLines v, s => s.setFunc (clearBits maskLines s.func ||| lineBits v)
  | .withLayout v, s => s.setMode (clearBits maskLayout s.mode ||| layoutBits v)
  | .withDisplay v, s => s.setCtrl (putBits maskDisplay v s.ctrl)
  | .withCursor v, s => s.setCtrl (putBits maskCursor v s.ctrl)
  | .withBlink v, s => s.setCtrl (putBits maskBlink v s.ctrl)
  | .withAutoscroll v, s => s.setMode (putBits maskAutoscroll v s.mode)
  | .withReliableInit d, s => s.setReliable d
  | .displayOn, s => s.setCtrl (setBits maskDisplay s.ctrl)
  | .displayOff, s => s.setCtrl (clearBits maskDisplay s.ctrl)
  | .cursorOn, s => s.setCtrl (setBits maskCursor s.ctrl)
  | .cursorOff, s => s.setCtrl (clearBits maskCursor s.ctrl)
  | .blinkOn, s => s.setCtrl (setBits maskBlink s.ctrl)
  | .blinkOff, s => s.setCtrl (clearBits maskBlink s.ctrl)
  | .autoscrollOn, s => s.setMode (setBits maskAutoscroll s.mode)
  | .autoscrollOff, s => s.setMode (clearBits maskAutoscroll s.mode)
  | .setLayout v, s => s.setMode (clearBits maskLayout s.mode ||| layoutBits v)
  | .getDisplay, s => s.answer (.bool (testBits maskDisplay s.ctrl))
  | .getCursor, s => s.answer (.bool (testBits maskCursor s.ctrl))
  | .getBlink, s => s.answer (.bool (testBits maskBlink s.ctrl))
  | .getAutoscroll, s => s.answer (.bool (testBits maskAutoscroll s.mode))
  | .getLayout, s => s.answer (.layout (layoutOf s.mode))
  | .lines, s => s.answer (.lines (lineCountOf s.func))
  | .size, s => s.answer (.size (cellSizeOf s.func))
  | .busWidth, s => s.answer (.width s.width)
  | .error, s => s.answer (.error s.err)
  | .clearDisplay, s | .returnHome, s | .entryModeSet _ _, s | .displayControl _ _ _, s | .cursorDisplayShift _ _, s
  | .functionSet _ _ _, s | .setCgramAddr _, s | .setDdramAddr _, s | .dataWrite _, s | .rawNibbleSync, s
  | .rawNibbleCommit, s | .build, s | .send _ _, s | .command _, s | .write _, s | .print _, s | .clear, s | .home, s
  | .setPosition _ _, s | .scroll _ _, s | .setCharacter _ _, s | .backlightOn, s | .backlightOff, s => s

/-- The script an instruction attempts, on the state with its registers written. -/
def scriptOf : Instr → State → List Event
  | .clearDisplay, s => s.commandScript Encoding.clearDisplay
  | .returnHome, s => s.commandScript Encoding.returnHome
  | .entryModeSet id sc, s => s.commandScript (Encoding.entryModeSet id sc)
  | .displayControl d c b, s => s.commandScript (Encoding.displayControl d c b)
  | .cursorDisplayShift sc rl, s => s.commandScript (Encoding.cursorDisplayShift sc rl)
  | .functionSet dl n f, s => s.commandScript (Encoding.functionSet dl n f)
  | .setCgramAddr a, s => s.commandScript (Encoding.setCgramAddr a)
  | .setDdramAddr a, s => s.commandScript (Encoding.setDdramAddr a)
  | .dataWrite d, s => s.dataScript d
  | .rawNibbleSync, _ => frame4Script 0x03
  | .rawNibbleCommit, _ => frame4Script 0x02
  | .build, s => s.buildScript
  | .send b rs, s => if rs then s.dataScript b else s.commandScript b
  | .command b, s => s.commandScript b
  | .write b, s => s.dataScript b
  | .print t, s => ((t.map charByte).map s.dataScript).flatten
  | .clear, s => s.commandScript 0x01
  | .home, s => s.commandScript 0x02
  | .setPosition col row, s => s.commandScript (0x80 ||| position s.func s.offsets col row)
  | .scroll dir n, s => (List.replicate n.toNat (s.commandScript (shiftCommand dir))).flatten
  | .displayOn, s | .displayOff, s | .cursorOn, s | .cursorOff, s | .blinkOn, s | .blinkOff, s =>
    s.commandScript (0x08 ||| s.ctrl)
  | .autoscrollOn, s | .autoscrollOff, s | .setLayout _, s => s.commandScript (0x04 ||| s.mode)
  | .setCharacter k g, s => s.commandScript (glyphCommand k) ++ (g.map s.dataScript).flatten
  | .backlightOn, _ => [.drive .bl .high]
  | .backlightOff, _ => [.drive .bl .low]
  | .bind _, _ | .withRw, _ | .withHalfBus, _ | .withFullBus, _ | .withBacklight, _ | .withCols _, _ | .withSize _, _
  | .withLines _, _ | .withLayout _, _ | .withDisplay _, _ | .withCursor _, _ | .withBlink _, _ | .withAutoscroll _, _
  | .withReliableInit _, _ | .getDisplay, _ | .getCursor, _ | .getBlink, _ | .getAutoscroll, _ | .getLayout, _
  | .lines, _ | .size, _ | .busWidth, _ | .error, _ => []

/-- What `build` does after its events. -/
def finish (i : Instr) (s : State) : State := if i = .build then (validate s).setPhase .rdy else s

/-- The whole effect of an instruction in its phase. -/
def effect (i : Instr) (s : State) : State :=
  finish i ((registersAfter i s).performed (scriptOf i (registersAfter i s)))

/-- An instruction without a script only writes its registers. -/
theorem effect_of_silent {i : Instr} {s : State} (hi : i ≠ .build) (h : scriptOf i (registersAfter i s) = []) :
    effect i s = registersAfter i s := by
  rw [effect, h, finish, if_neg hi, State.performed_nil]

theorem scroll_eq_performed (n : Nat) (b : Byte) (s : State) :
    times n (command b) s = s.performed (List.replicate n (s.commandScript b)).flatten :=
  times_eq_performed n _ _ s fun m => by rw [command_eq_performed]; rfl

/-- The outcome of an instruction whose effect is `t`, in the phase it needs. -/
def outcomeIn (need : Option Phase) (s t : State) : Result :=
  match need with
  | none => .next t
  | some p => if s.phase = p then .next t else .refused .outOfPhase

theorem inPhase_eq_outcomeIn (p : Phase) (f : State → State) (s : State) : inPhase p f s = outcomeIn (some p) s (f s) := rfl

theorem exec_eq_of_silent {i : Instr} {s : State} (hi : i ≠ .build) (h : scriptOf i (registersAfter i s) = [])
    (hx : exec i s = outcomeIn (phaseNeeded i) s (registersAfter i s)) :
    exec i s = outcomeIn (phaseNeeded i) s (effect i s) := by
  rw [effect_of_silent hi h, hx]

/-- Every instruction at once. -/
theorem exec_eq (i : Instr) (s : State) : exec i s = outcomeIn (phaseNeeded i) s (effect i s) := by
  cases i
  case build =>
    have h : effect .build s = buildAll s := (buildAll_eq s).symm
    rw [h]
    rfl
  case send b rs => exact congrArg (outcomeIn (some .rdy) s) (send_eq_performed b rs s)
  case command b => exact congrArg (outcomeIn (some .rdy) s) (command_eq_performed b s)
  case write b => exact congrArg (outcomeIn (some .rdy) s) (write_eq_performed b s)
  case print t => exact congrArg (outcomeIn (some .rdy) s) (writeAll_eq_performed _ s)
  case clear => exact congrArg (outcomeIn (some .rdy) s) (command_eq_performed _ s)
  case home => exact congrArg (outcomeIn (some .rdy) s) (command_eq_performed _ s)
  case setPosition col row => exact congrArg (outcomeIn (some .rdy) s) (command_eq_performed _ s)
  case scroll dir n => exact congrArg (outcomeIn (some .rdy) s) (scroll_eq_performed n.toNat _ s)
  case setCharacter k g =>
    refine congrArg (outcomeIn (some .rdy) s) ?_
    show writeAll g (command (glyphCommand k) s) = _
    rw [command_eq_performed, writeAll_eq_performed, State.performed_performed]
    rfl
  case backlightOn => exact congrArg (outcomeIn (some .rdy) s) (drive_eq_performed _ _ s)
  case backlightOff => exact congrArg (outcomeIn (some .rdy) s) (drive_eq_performed _ _ s)
  case displayOn => exact congrArg (outcomeIn (some .rdy) s) (command_eq_performed _ _)
  case displayOff => exact congrArg (outcomeIn (some .rdy) s) (command_eq_performed _ _)
  case cursorOn => exact congrArg (outcomeIn (some .rdy) s) (command_eq_performed _ _)
  case cursorOff => exact congrArg (outcomeIn (some .rdy) s) (command_eq_performed _ _)
  case blinkOn => exact congrArg (outcomeIn (some .rdy) s) (command_eq_performed _ _)
  case blinkOff => exact congrArg (outcomeIn (some .rdy) s) (command_eq_performed _ _)
  case autoscrollOn => exact congrArg (outcomeIn (some .rdy) s) (command_eq_performed _ _)
  case autoscrollOff => exact congrArg (outcomeIn (some .rdy) s) (command_eq_performed _ _)
  case setLayout v => exact congrArg (outcomeIn (some .rdy) s) (command_eq_performed _ _)
  case clearDisplay => exact congrArg (outcomeIn none s) (command_eq_performed _ s)
  case returnHome => exact congrArg (outcomeIn none s) (command_eq_performed _ s)
  case entryModeSet id sc => exact congrArg (outcomeIn none s) (command_eq_performed _ s)
  case displayControl d c b => exact congrArg (outcomeIn none s) (command_eq_performed _ s)
  case cursorDisplayShift sc rl => exact congrArg (outcomeIn none s) (command_eq_performed _ s)
  case functionSet dl n f => exact congrArg (outcomeIn none s) (command_eq_performed _ s)
  case setCgramAddr a => exact congrArg (outcomeIn none s) (command_eq_performed _ s)
  case setDdramAddr a => exact congrArg (outcomeIn none s) (command_eq_performed _ s)
  case dataWrite d => exact congrArg (outcomeIn none s) (write_eq_performed d s)
  case rawNibbleSync => exact congrArg (outcomeIn none s) (frame4_eq_performed _ s)
  case rawNibbleCommit => exact congrArg (outcomeIn none s) (frame4_eq_performed _ s)
  all_goals
    apply exec_eq_of_silent
    · exact fun h => by cases h
    · rfl
    · rfl

/-- An instruction that answers a next state ran in its phase, and had exactly its effect. -/
theorem exec_cases {i : Instr} {s t : State} (h : exec i s = .next t) :
    (∀ p, phaseNeeded i = some p → s.phase = p) ∧ t = effect i s := by
  rw [exec_eq] at h
  unfold outcomeIn at h
  split at h
  · rename_i hp
    cases h
    exact ⟨fun p hq => by simp [hp] at hq, rfl⟩
  · rename_i p hp
    split at h
    · cases h
      exact ⟨fun q hq => by rw [hp] at hq; cases hq; assumption, rfl⟩
    · cases h

/-- In its phase, an instruction completes. -/
theorem exec_next {i : Instr} {s : State} (h : ∀ p, phaseNeeded i = some p → s.phase = p) :
    exec i s = .next (effect i s) := by
  rw [exec_eq]
  unfold outcomeIn
  split
  · rfl
  · rename_i p hp
    rw [if_pos (h p hp)]

/-- Out of its phase, it is refused. -/
theorem exec_refused {i : Instr} {s : State} {p : Phase} (hp : phaseNeeded i = some p) (h : s.phase ≠ p) :
    exec i s = .refused .outOfPhase := by
  rw [exec_eq, hp]
  exact if_neg h

/-! ## What the register part leaves alone -/

@[simp] theorem registersAfter_phase (i : Instr) (s : State) : (registersAfter i s).phase = s.phase := by
  cases i <;> simp [registersAfter, bindAll]
@[simp] theorem registersAfter_level (i : Instr) (s : State) : (registersAfter i s).level = s.level := by
  cases i <;> simp [registersAfter, bindAll]
@[simp] theorem registersAfter_err (i : Instr) (s : State) : (registersAfter i s).err = s.err := by
  cases i <;> simp [registersAfter, bindAll]
@[simp] theorem registersAfter_pending (i : Instr) (s : State) : (registersAfter i s).pending = s.pending := by
  cases i <;> simp [registersAfter, bindAll]
@[simp] theorem registersAfter_repeats (i : Instr) (s : State) : (registersAfter i s).repeats = s.repeats := by
  cases i <;> simp [registersAfter, bindAll]
@[simp] theorem registersAfter_trace (i : Instr) (s : State) : (registersAfter i s).trace = s.trace := by
  cases i <;> simp [registersAfter, bindAll]

/-- Only configuration changes what is bound, the framing, the table or the pre-step. -/
theorem registersAfter_frozen {i : Instr} (h : phaseNeeded i ≠ some .cfg) (s : State) :
    (registersAfter i s).bound = s.bound ∧ (registersAfter i s).func = s.func ∧ (registersAfter i s).cols = s.cols ∧
      (registersAfter i s).offsets = s.offsets ∧ (registersAfter i s).reliable = s.reliable := by
  cases i <;> first | exact absurd rfl h | simp [registersAfter]

/-- Configuration attempts nothing, but for `build`. -/
theorem scriptOf_cfg {i : Instr} (h : phaseNeeded i = some .cfg) (hb : i ≠ .build) (s : State) : scriptOf i s = [] := by
  cases i <;> first
    | (simp [phaseNeeded] at h; done)
    | exact absurd rfl hb
    | rfl

/-- The register part never unbinds a slot. -/
theorem registersAfter_bound_mono (i : Instr) (s : State) {p : Slot} (h : s.bound.get p = true) :
    (registersAfter i s).bound.get p = true := by
  cases i <;> simp [registersAfter, bindAll, h]

/-- Every instruction but `build` is its registers, then its script. -/
theorem effect_of_ne_build {i : Instr} (hi : i ≠ .build) (s : State) :
    effect i s = (registersAfter i s).performed (scriptOf i (registersAfter i s)) := by
  rw [effect, finish, if_neg hi]

theorem effect_build (s : State) : effect .build s = { s.performed s.buildScript with
    err := if s.busBound then errAfter s.bound s.err s.buildScript else .invalidBus
    phase := .rdy } := by
  rw [effect, finish, if_pos rfl, validate_eq]
  rfl

@[simp] theorem effect_trace (i : Instr) (s : State) :
    (effect i s).trace = s.trace ++ emitted (registersAfter i s).bound (scriptOf i (registersAfter i s)) := by
  by_cases hi : i = .build
  · subst hi; rw [effect_build]; rfl
  · rw [effect_of_ne_build hi]; simp

@[simp] theorem effect_level (i : Instr) (s : State) :
    (effect i s).level = levelAfter s.level (emitted (registersAfter i s).bound (scriptOf i (registersAfter i s))) := by
  by_cases hi : i = .build
  · subst hi; rw [effect_build]; rfl
  · rw [effect_of_ne_build hi]; simp

/-- Every other field is the register part's, but for what `build` writes at its end. -/
theorem effect_registers (i : Instr) (s : State) :
    (effect i s).bound = (registersAfter i s).bound ∧ (effect i s).func = (registersAfter i s).func ∧
      (effect i s).ctrl = (registersAfter i s).ctrl ∧ (effect i s).mode = (registersAfter i s).mode ∧
      (effect i s).cols = (registersAfter i s).cols ∧ (effect i s).offsets = (registersAfter i s).offsets ∧
      (effect i s).reliable = (registersAfter i s).reliable ∧ (effect i s).repeats = s.repeats ∧
      (effect i s).pending = s.pending ∧ (effect i s).answers = (registersAfter i s).answers := by
  by_cases hi : i = .build
  · subst hi; rw [effect_build]; exact ⟨rfl, rfl, rfl, rfl, rfl, rfl, rfl, rfl, rfl, rfl⟩
  · rw [effect_of_ne_build hi]; exact ⟨rfl, rfl, rfl, rfl, rfl, rfl, rfl, registersAfter_repeats i s, registersAfter_pending i s, rfl⟩

/-! ## Sequences -/

@[simp] theorem runAll_nil (s : State) : runAll [] s = .next s := rfl

/-- An instruction that completes hands its state to the rest of the sequence. -/
theorem runAll_cons_next {i : Instr} {s t : State} (h : exec i s = .next t) (l : List Instr) :
    runAll (i :: l) s = runAll l t := by
  rw [runAll, h]

/-- A sequence of instructions of one shape, each of which performs a script that does not depend on what was performed before. -/
theorem runAll_map_eq_performed {α : Type} (l : List α) (make : α → Instr) (script : α → List Event) (s : State)
    (h : ∀ (a : α) (m : List Event), exec (make a) (s.performed m) = .next ((s.performed m).performed (script a))) :
    runAll (l.map make) s = .next (s.performed (l.map script).flatten) := by
  suffices H : ∀ (l : List α) (m : List Event),
      runAll (l.map make) (s.performed m) = .next (s.performed (m ++ (l.map script).flatten)) by
    simpa using H l []
  intro l
  induction l with
  | nil => intro m; simp
  | cons a l ih =>
    intro m
    rw [List.map_cons, runAll_cons_next (h a m), State.performed_performed, ih]
    simp

/-- Binding slot after slot is binding them all. -/
theorem runAll_bind (l : List Slot) {s : State} (h : s.phase = .cfg) : runAll (l.map .bind) s = .next (bindAll l s) := by
  induction l generalizing s with
  | nil => rfl
  | cons p l ih =>
    have e : exec (.bind p) s = .next (s.bindSlot p) := inPhase_eq_next _ h
    rw [List.map_cons, runAll_cons_next e, ih (by simpa using h)]
    rfl

/-- Binding does not touch the registers. -/
theorem bindAll_setFunc (l : List Slot) (v : Byte) (s : State) : bindAll l (s.setFunc v) = (bindAll l s).setFunc v := by
  induction l generalizing s with
  | nil => rfl
  | cons p l ih => exact ih (s.bindSlot p)

end Sys2Proof.Machine
end

