-- ==== Sys2Proof/Laws/PerInstr.lean ====
section
/-! SUPPORT. Statements made per instruction.  Family `TableRow`: the code of a wire item has the format of its row of
`spec/opcode_table.json`, and its word has the row's fixed bits (`word &&& mask = match`); a row without a code is a `HOST` row,
whose `match` is the table key `opidx` and no encoding (R80, R81). -/

namespace Sys2Proof.Laws

/-- A row's `format`, `match` and `mask`. -/
structure Row where
  format : Format
  bits : Byte
  mask : Byte
  deriving DecidableEq, Repr

/-- The row of each instruction, copied from `spec/opcode_table.json`. -/
def tableRow : Instr → Row
  | .clearDisplay => ⟨.cmd, 0x01, 0xFF⟩
  | .returnHome => ⟨.cmd, 0x02, 0xFF⟩
  | .entryModeSet _ _ => ⟨.cmd, 0x04, 0xFC⟩
  | .displayControl _ _ _ => ⟨.cmd, 0x08, 0xF8⟩
  | .cursorDisplayShift _ _ => ⟨.cmd, 0x10, 0xF3⟩
  | .functionSet _ _ _ => ⟨.cmd, 0x20, 0xE3⟩
  | .setCgramAddr _ => ⟨.cmd, 0x40, 0xC0⟩
  | .setDdramAddr _ => ⟨.cmd, 0x80, 0x80⟩
  | .dataWrite _ => ⟨.data, 0x00, 0x00⟩
  | .rawNibbleSync => ⟨.nib, 0x3, 0x0F⟩
  | .rawNibbleCommit => ⟨.nib, 0x2, 0x0F⟩
  | .bind _ => ⟨.host, 0x00, 0xFF⟩
  | .withRw => ⟨.host, 0x01, 0xFF⟩
  | .withHalfBus => ⟨.host, 0x02, 0xFF⟩
  | .withFullBus => ⟨.host, 0x03, 0xFF⟩
  | .withBacklight => ⟨.host, 0x04, 0xFF⟩
  | .withCols _ => ⟨.host, 0x05, 0xFF⟩
  | .withSize _ => ⟨.host, 0x06, 0xFF⟩
  | .withLines _ => ⟨.host, 0x07, 0xFF⟩
  | .withLayout _ => ⟨.host, 0x08, 0xFF⟩
  | .withDisplay _ => ⟨.host, 0x09, 0xFF⟩
  | .withCursor _ => ⟨.host, 0x0A, 0xFF⟩
  | .withBlink _ => ⟨.host, 0x0B, 0xFF⟩
  | .withAutoscroll _ => ⟨.host, 0x0C, 0xFF⟩
  | .withReliableInit _ => ⟨.host, 0x0D, 0xFF⟩
  | .build => ⟨.host, 0x0E, 0xFF⟩
  | .send _ _ => ⟨.host, 0x10, 0xFF⟩
  | .command _ => ⟨.host, 0x11, 0xFF⟩
  | .write _ => ⟨.host, 0x12, 0xFF⟩
  | .print _ => ⟨.host, 0x13, 0xFF⟩
  | .clear => ⟨.host, 0x14, 0xFF⟩
  | .home => ⟨.host, 0x15, 0xFF⟩
  | .setPosition _ _ => ⟨.host, 0x16, 0xFF⟩
  | .scroll _ _ => ⟨.host, 0x17, 0xFF⟩
  | .displayOn => ⟨.host, 0x18, 0xFF⟩
  | .displayOff => ⟨.host, 0x19, 0xFF⟩
  | .cursorOn => ⟨.host, 0x1A, 0xFF⟩
  | .cursorOff => ⟨.host, 0x1B, 0xFF⟩
  | .blinkOn => ⟨.host, 0x1C, 0xFF⟩
  | .blinkOff => ⟨.host, 0x1D, 0xFF⟩
  | .autoscrollOn => ⟨.host, 0x1E, 0xFF⟩
  | .autoscrollOff => ⟨.host, 0x1F, 0xFF⟩
  | .setLayout _ => ⟨.host, 0x20, 0xFF⟩
  | .setCharacter _ _ => ⟨.host, 0x21, 0xFF⟩
  | .backlightOn => ⟨.host, 0x22, 0xFF⟩
  | .backlightOff => ⟨.host, 0x23, 0xFF⟩
  | .getDisplay => ⟨.host, 0x30, 0xFF⟩
  | .getCursor => ⟨.host, 0x31, 0xFF⟩
  | .getBlink => ⟨.host, 0x32, 0xFF⟩
  | .getAutoscroll => ⟨.host, 0x33, 0xFF⟩
  | .getLayout => ⟨.host, 0x34, 0xFF⟩
  | .lines => ⟨.host, 0x35, 0xFF⟩
  | .size => ⟨.host, 0x36, 0xFF⟩
  | .busWidth => ⟨.host, 0x37, 0xFF⟩
  | .error => ⟨.host, 0x38, 0xFF⟩

/-- The code of `i` fits the row of `i`; the row of an instruction without a code is a `HOST` row. -/
def TableRow.Statement (i : Instr) : Prop :=
  match encode i with
  | some c => c.format = (tableRow i).format ∧ c.word &&& (tableRow i).mask = (tableRow i).bits
  | none => (tableRow i).format = .host

theorem TableRow.clearDisplay : TableRow.Statement (.clearDisplay) := ⟨rfl, rfl⟩
theorem TableRow.returnHome : TableRow.Statement (.returnHome) := ⟨rfl, rfl⟩
theorem TableRow.entryModeSet (id s : Bool) : TableRow.Statement (.entryModeSet id s) := ⟨rfl, by revert id s; decide⟩
theorem TableRow.displayControl (d c b : Bool) : TableRow.Statement (.displayControl d c b) := ⟨rfl, by revert d c b; decide⟩
theorem TableRow.cursorDisplayShift (sc rl : Bool) : TableRow.Statement (.cursorDisplayShift sc rl) := ⟨rfl, by revert sc rl; decide⟩
theorem TableRow.functionSet (dl n f : Bool) : TableRow.Statement (.functionSet dl n f) := ⟨rfl, by revert dl n f; decide⟩
theorem TableRow.setCgramAddr (a : BitVec 6) : TableRow.Statement (.setCgramAddr a) := ⟨rfl, by revert a; decide⟩
theorem TableRow.setDdramAddr (a : BitVec 7) : TableRow.Statement (.setDdramAddr a) := ⟨rfl, by revert a; decide⟩
theorem TableRow.dataWrite (d : Byte) : TableRow.Statement (.dataWrite d) := ⟨rfl, by simp [tableRow]⟩
theorem TableRow.rawNibbleSync : TableRow.Statement (.rawNibbleSync) := ⟨rfl, rfl⟩
theorem TableRow.rawNibbleCommit : TableRow.Statement (.rawNibbleCommit) := ⟨rfl, rfl⟩
theorem TableRow.bind (p : Slot) : TableRow.Statement (.bind p) := rfl
theorem TableRow.withRw : TableRow.Statement (.withRw) := rfl
theorem TableRow.withHalfBus : TableRow.Statement (.withHalfBus) := rfl
theorem TableRow.withFullBus : TableRow.Statement (.withFullBus) := rfl
theorem TableRow.withBacklight : TableRow.Statement (.withBacklight) := rfl
theorem TableRow.withCols (c : Byte) : TableRow.Statement (.withCols c) := rfl
theorem TableRow.withSize (v : CellSize) : TableRow.Statement (.withSize v) := rfl
theorem TableRow.withLines (v : LineCount) : TableRow.Statement (.withLines v) := rfl
theorem TableRow.withLayout (v : Layout) : TableRow.Statement (.withLayout v) := rfl
theorem TableRow.withDisplay (v : Bool) : TableRow.Statement (.withDisplay v) := rfl
theorem TableRow.withCursor (v : Bool) : TableRow.Statement (.withCursor v) := rfl
theorem TableRow.withBlink (v : Bool) : TableRow.Statement (.withBlink v) := rfl
theorem TableRow.withAutoscroll (v : Bool) : TableRow.Statement (.withAutoscroll v) := rfl
theorem TableRow.withReliableInit (d : Nat) : TableRow.Statement (.withReliableInit d) := rfl
theorem TableRow.build : TableRow.Statement (.build) := rfl
theorem TableRow.send (b : Byte) (rs : Bool) : TableRow.Statement (.send b rs) := rfl
theorem TableRow.command (b : Byte) : TableRow.Statement (.command b) := rfl
theorem TableRow.write (b : Byte) : TableRow.Statement (.write b) := rfl
theorem TableRow.print (t : List Nat) : TableRow.Statement (.print t) := rfl
theorem TableRow.clear : TableRow.Statement (.clear) := rfl
theorem TableRow.home : TableRow.Statement (.home) := rfl
theorem TableRow.setPosition (col row : Byte) : TableRow.Statement (.setPosition col row) := rfl
theorem TableRow.scroll (dir : Dir) (n : Byte) : TableRow.Statement (.scroll dir n) := rfl
theorem TableRow.displayOn : TableRow.Statement (.displayOn) := rfl
theorem TableRow.displayOff : TableRow.Statement (.displayOff) := rfl
theorem TableRow.cursorOn : TableRow.Statement (.cursorOn) := rfl
theorem TableRow.cursorOff : TableRow.Statement (.cursorOff) := rfl
theorem TableRow.blinkOn : TableRow.Statement (.blinkOn) := rfl
theorem TableRow.blinkOff : TableRow.Statement (.blinkOff) := rfl
theorem TableRow.autoscrollOn : TableRow.Statement (.autoscrollOn) := rfl
theorem TableRow.autoscrollOff : TableRow.Statement (.autoscrollOff) := rfl
theorem TableRow.setLayout (v : Layout) : TableRow.Statement (.setLayout v) := rfl
theorem TableRow.setCharacter (k : Byte) (g : List Byte) : TableRow.Statement (.setCharacter k g) := rfl
theorem TableRow.backlightOn : TableRow.Statement (.backlightOn) := rfl
theorem TableRow.backlightOff : TableRow.Statement (.backlightOff) := rfl
theorem TableRow.getDisplay : TableRow.Statement (.getDisplay) := rfl
theorem TableRow.getCursor : TableRow.Statement (.getCursor) := rfl
theorem TableRow.getBlink : TableRow.Statement (.getBlink) := rfl
theorem TableRow.getAutoscroll : TableRow.Statement (.getAutoscroll) := rfl
theorem TableRow.getLayout : TableRow.Statement (.getLayout) := rfl
theorem TableRow.lines : TableRow.Statement (.lines) := rfl
theorem TableRow.size : TableRow.Statement (.size) := rfl
theorem TableRow.busWidth : TableRow.Statement (.busWidth) := rfl
theorem TableRow.error : TableRow.Statement (.error) := rfl

end Sys2Proof.Laws
end

