-- ==== Sys2Proof/Laws/Trace.lean ====
section
/-! SUPPORT. Lemmas about what reaches the outside world: the events of scripts, their waits, their latches (R100), the slots
they miss (R196), and the byte facts of the shadow registers.  Callers cite these and unfold no frame. -/

namespace Sys2Proof.Machine

/-! ## Emitted events -/

@[simp] theorem emitted_nil (b : PerSlot Bool) : emitted b [] = [] := rfl

theorem emitted_cons_drive (b : PerSlot Bool) (p : Slot) (lv : Level) (l : List Event) :
    emitted b (.drive p lv :: l) = if b.get p then .drive p lv :: emitted b l else emitted b l := by
  simp only [emitted, List.filter_cons, reaches]
  rfl

theorem emitted_cons_wait (b : PerSlot Bool) (d : Config.Duration) (l : List Event) :
    emitted b (.wait d :: l) = .wait d :: emitted b l := rfl

theorem emitted_flatten {b : PerSlot Bool} {ls : List (List Event)} (h : ∀ l ∈ ls, emitted b l = l) :
    emitted b ls.flatten = ls.flatten := by
  induction ls with
  | nil => rfl
  | cons l ls ih =>
    simp only [List.flatten_cons, emitted_append, h l (List.mem_cons_self ..), ih fun m hm => h m (List.mem_cons_of_mem _ hm)]

/-- The events of a run are what it appended. -/
theorem newEvents_of_trace {s t : State} {l : List Event} (h : t.trace = s.trace ++ l) : newEvents s t = l := by
  simp [newEvents, h]

@[simp] theorem newEvents_performed (s : State) (l : List Event) : newEvents s (s.performed l) = emitted s.bound l :=
  newEvents_of_trace rfl

theorem eightBit_eq (s : State) : s.func.getLsbD 4 = s.eightBit := rfl

/-! ## Slots bound by `wired` -/

theorem wired_frame4 {s : State} (hw : s.wired) (v : Byte) : emitted s.bound (frame4Script v) = frame4Script v := by
  obtain ⟨hr, he, h4, h5, h6, h7, h8⟩ := hw
  simp [frame4Script, lineEvent, emitted, reaches, PerSlot.get, he, h4, h5, h6, h7]

theorem wired_frame8 {s : State} (hw : s.wired) (h : s.eightBit = true) (v : Byte) :
    emitted s.bound (frame8Script v) = frame8Script v := by
  obtain ⟨hr, he, h4, h5, h6, h7, h8⟩ := hw
  obtain ⟨h0, h1, h2, h3⟩ := h8 h
  simp [frame8Script, lineEvent, emitted, reaches, PerSlot.get, he, h4, h5, h6, h7, h0, h1, h2, h3]

theorem emitted_rwScript (s : State) : emitted s.bound (rwScript s.bound.rw) = rwScript s.bound.rw := by
  cases h : s.bound.rw <;> simp [rwScript, emitted, reaches, PerSlot.get, h]

theorem wired_byte {s : State} (hw : s.wired) (b : Byte) :
    emitted s.bound (byteScript s.eightBit b) = byteScript s.eightBit b := by
  cases h : s.eightBit
  · simp [byteScript, emitted_append, wired_frame4 hw]
  · simp [byteScript, wired_frame8 hw h]

/-- With every line wired, a command transmission emits all it attempts. -/
theorem wired_command {s : State} (hw : s.wired) (b : Byte) : emitted s.bound (s.commandScript b) = s.commandScript b := by
  have hr := hw.1
  simp [State.commandScript, commandScript, emitted_cons_drive, emitted_cons_wait, emitted_append, wired_byte hw,
    emitted_rwScript, PerSlot.get, hr]

/-- With every line wired, a data transmission emits all it attempts. -/
theorem wired_data {s : State} (hw : s.wired) (b : Byte) : emitted s.bound (s.dataScript b) = s.dataScript b := by
  have hr := hw.1
  simp [State.dataScript, dataScript, emitted_cons_drive, emitted_cons_wait, emitted_append, wired_byte hw,
    emitted_rwScript, PerSlot.get, hr]

/-- With every line wired, `build` emits all it attempts. -/
theorem wired_build {s : State} (hw : s.wired) : emitted s.bound s.buildScript = s.buildScript := by
  have hr := hw.1
  have he := hw.2.1
  have h1 : emitted s.bound s.handshakeScript = s.handshakeScript := by
    unfold State.handshakeScript
    split <;> simp only [emitted_append, wired_command hw, wired_frame4 hw, emitted_cons_wait, emitted_nil]
  have h2 : emitted s.bound s.preScript = s.preScript := by
    unfold State.preScript
    split
    · rfl
    · refine emitted_flatten fun l hl => ?_
      rw [List.eq_of_mem_replicate hl]
      simp only [emitted_append, wired_command hw, emitted_cons_wait, emitted_nil]
  simp only [State.buildScript, emitted_append, wired_command hw, h1, h2, emitted_cons_wait, emitted_nil, emitted_cons_drive,
    PerSlot.get, hr, he, if_true, emitted_rwScript]

/-! ## Missed slots -/

/-- Every missed slot is unbound. -/
theorem unbound_of_missed {b : PerSlot Bool} {l : List Event} {p : Slot} (h : p ∈ missed b l) : b.get p = false := by
  induction l with
  | nil => cases h
  | cons e l ih =>
    cases e with
    | wait d => exact ih h
    | drive q lv =>
      simp only [missed] at h
      split at h
      · exact ih h
      · rename_i hq
        rcases List.mem_cons.1 h with rfl | h
        · simpa using hq
        · exact ih h

/-- Every unbound slot that a script attempts is missed. -/
theorem missed_of_unbound {b : PerSlot Bool} {l : List Event} {p : Slot} {lv : Level} (hm : .drive p lv ∈ l)
    (hp : b.get p = false) : p ∈ missed b l := by
  induction l with
  | nil => cases hm
  | cons e l ih =>
    rcases List.mem_cons.1 hm with rfl | hl
    · simp [missed, hp]
    · cases e with
      | wait d => exact ih hl
      | drive q lv =>
        simp only [missed]
        split
        · exact ih hl
        · exact List.mem_cons_of_mem _ (ih hl)

/-- A script that attempts an unbound slot leaves the code of some unbound slot. -/
theorem errAfter_of_unbound {b : PerSlot Bool} {l : List Event} {p : Slot} {lv : Level} (c : ErrorCode)
    (hm : .drive p lv ∈ l) (hp : b.get p = false) : ∃ q, b.get q = false ∧ errAfter b c l = .missingPin q := by
  have := missed_of_unbound hm hp
  unfold errAfter
  cases h : (missed b l).getLast? with
  | none => simp only [List.getLast?_eq_none_iff] at h; simp [h] at this
  | some q => exact ⟨q, unbound_of_missed (List.mem_of_getLast? h), rfl⟩

/-- A script that attempts only bound slots records nothing. -/
theorem errAfter_of_bound {b : PerSlot Bool} {l : List Event} (c : ErrorCode) (h : emitted b l = l) : errAfter b c l = c := by
  have hm : missed b l = [] := by
    cases hm : missed b l with
    | nil => rfl
    | cons p m =>
      exfalso
      have : ∀ l : List Event, (∀ e ∈ l, reaches b e = true) → missed b l = [] := by
        intro l
        induction l with
        | nil => exact fun _ => rfl
        | cons e l ih =>
          intro h
          have := ih fun e he => h e (List.mem_cons_of_mem _ he)
          have h0 := h e (List.mem_cons_self ..)
          cases e with
          | drive p lv => simpa [missed, show b.get p = true from h0] using this
          | wait d => exact this
      rw [this l (List.filter_eq_self.1 h)] at hm
      cases hm
  simp [errAfter, hm]

/-- Recording never clears. -/
theorem errAfter_ne_noError {b : PerSlot Bool} {c : ErrorCode} (l : List Event) (h : c ≠ .noError) :
    errAfter b c l ≠ .noError := by
  unfold errAfter
  split
  · exact fun h => by cases h
  · exact h

/-- The last slot missed by a run of data lines: the one nearest its end. -/
theorem getLast?_missed_lines (b : PerSlot Bool) (v : Byte) (l : List (Slot × Nat)) (pre : List Slot) :
    (pre ++ missed b (l.map fun p => lineEvent p.1 v p.2)).getLast? =
      (l.reverse.find? fun p => !b.get p.1).elim pre.getLast? (fun p => some p.1) := by
  induction l generalizing pre with
  | nil => simp [missed]
  | cons p l ih =>
    have ih0 := ih pre
    have ih1 := ih (pre ++ [p.1])
    simp only [lineEvent] at ih0 ih1
    simp only [List.map_cons, lineEvent, missed, List.reverse_cons, List.find?_append]
    split
    · rename_i hb
      rw [ih0]
      simp [List.find?, hb]
    · rename_i hb
      have hb : b.get p.1 = false := by simpa using hb
      rw [List.append_cons, ih1]
      cases List.find? (fun p => !b.get p.1) l.reverse <;> simp [List.find?, hb]

theorem missed_rwScript (s : State) : missed s.bound (rwScript s.bound.rw) = [] := by
  cases h : s.bound.rw <;> simp [rwScript, missed, PerSlot.get, h]

theorem busBound_eq_any (s : State) : s.busBound = s.activeData.any s.bound.get := by
  unfold State.busBound State.activeData
  rw [eightBit_eq]
  cases h : s.eightBit <;> simp [PerSlot.get, Bool.or_assoc]

/-! ## Waits -/

theorem waitsOf_append (l m : List Event) : waitsOf (l ++ m) = waitsOf l ++ waitsOf m := by
  induction l with
  | nil => rfl
  | cons e l ih => cases e <;> simp [waitsOf, ih]

/-- Waits happen whatever is bound. -/
theorem waitsOf_emitted (b : PerSlot Bool) (l : List Event) : waitsOf (emitted b l) = waitsOf l := by
  induction l with
  | nil => rfl
  | cons e l ih =>
    cases e with
    | drive p lv => rw [emitted_cons_drive]; split <;> simp [waitsOf, ih]
    | wait d => rw [emitted_cons_wait]; simp [waitsOf, ih]

theorem waitsOf_flatten (ls : List (List Event)) : waitsOf ls.flatten = (ls.map waitsOf).flatten := by
  induction ls with
  | nil => rfl
  | cons l ls ih => simp [waitsOf_append, ih]

@[simp] theorem waitsOf_frame4 (v : Byte) : waitsOf (frame4Script v) = [] := rfl
@[simp] theorem waitsOf_frame8 (v : Byte) : waitsOf (frame8Script v) = [] := rfl
@[simp] theorem waitsOf_rwScript (b : Bool) : waitsOf (rwScript b) = [] := by cases b <;> rfl
@[simp] theorem waitsOf_byteScript (e : Bool) (v : Byte) : waitsOf (byteScript e v) = [] := by cases e <;> rfl

@[simp] theorem waitsOf_commandScript (s : State) (b : Byte) : waitsOf (s.commandScript b) = [.cmd] := by
  simp [State.commandScript, commandScript, waitsOf, waitsOf_append]

@[simp] theorem waitsOf_dataScript (s : State) (b : Byte) : waitsOf (s.dataScript b) = [.chr] := by
  simp [State.dataScript, dataScript, waitsOf, waitsOf_append]

/-! ## Latches -/

theorem latches_append (w : Nat) (lv : PerSlot (Option Level)) (l m : List Event) :
    latches w lv (l ++ m) = latches w lv l ++ latches w (levelAfter lv l) m := by
  induction l generalizing lv with
  | nil => rfl
  | cons e l ih => simp only [List.cons_append, latches, ih]; split <;> simp [levelAfter]

theorem latches_wait (w : Nat) (lv : PerSlot (Option Level)) (d : Config.Duration) (l : List Event) :
    latches w lv (.wait d :: l) = latches w lv l := by
  simp [latches, isLatchEdge, applyEvent]

theorem levelAfter_drive (lv : PerSlot (Option Level)) (p : Slot) (v : Level) (l : List Event) :
    levelAfter lv (.drive p v :: l) = levelAfter (lv.set p (some v)) l := rfl

theorem levelAfter_wait (lv : PerSlot (Option Level)) (d : Config.Duration) (l : List Event) :
    levelAfter lv (.wait d :: l) = levelAfter lv l := rfl

theorem latches_frame4 (v : Byte) {lv : PerSlot (Option Level)} (h : lv.en ≠ some .high) :
    latches 4 lv (frame4Script v) =
      [{ rs := lv.rs, data := [3, 2, 1, 0].map fun i => some (if v.getLsbD i then .high else .low) }] := by
  have : (lv.en == some Level.high) = false := by simpa using h
  simp [frame4Script, lineEvent, latches, isLatchEdge, applyEvent, PerSlot.set, this, sample, dataBus, PerSlot.get]

theorem latches_frame8 (v : Byte) {lv : PerSlot (Option Level)} (h : lv.en ≠ some .high) :
    latches 8 lv (frame8Script v) =
      [{ rs := lv.rs, data := [7, 6, 5, 4, 3, 2, 1, 0].map fun i => some (if v.getLsbD i then .high else .low) }] := by
  have : (lv.en == some Level.high) = false := by simpa using h
  simp [frame8Script, lineEvent, latches, isLatchEdge, applyEvent, PerSlot.set, this, sample, dataBus, PerSlot.get]

/-- Events that leave EN alone latch nothing. -/
theorem latches_of_quiet (w : Nat) {l : List Event} (h : ∀ v : Level, .drive .en v ∉ l) (lv : PerSlot (Option Level)) :
    latches w lv l = [] ∧ (levelAfter lv l).en = lv.en := by
  induction l generalizing lv with
  | nil => exact ⟨rfl, rfl⟩
  | cons e l ih =>
    have hl : ∀ v : Level, .drive .en v ∉ l := fun v hm => h v (List.mem_cons_of_mem _ hm)
    have he : ∀ v : Level, e ≠ .drive .en v := fun v hv => h v (hv ▸ List.mem_cons_self ..)
    refine ⟨?_, ?_⟩
    · simp only [latches, ih hl, isLatchEdge]
      simp [he]
    · rw [show levelAfter lv (e :: l) = levelAfter (applyEvent lv e) l from rfl, (ih hl _).2]
      cases e with
      | wait d => rfl
      | drive p v =>
        cases p <;> first | rfl | exact absurd rfl (he v)

/-- A frame with EN bound latches once, whatever else is bound. -/
theorem latches_emitted_frame (w : Nat) {b : PerSlot Bool} (hb : b.en = true) {m : List Event}
    (h : ∀ v : Level, .drive .en v ∉ m) {lv : PerSlot (Option Level)} (he : lv.en ≠ some .high) :
    (latches w lv (emitted b (.drive .en .low :: m ++ [.drive .en .high, .drive .en .low]))).length = 1 ∧
      (levelAfter lv (emitted b (.drive .en .low :: m ++ [.drive .en .high, .drive .en .low]))).en = some .low := by
  have hq : ∀ v : Level, .drive .en v ∉ emitted b m := fun v hm => h v (List.mem_filter.1 hm).1
  have hn : (lv.en == some Level.high) = false := by simpa using he
  obtain ⟨q1, q2⟩ := latches_of_quiet w hq (lv.set .en (some .low))
  rw [List.cons_append, emitted_cons_drive, emitted_append, emitted_cons_drive, emitted_cons_drive]
  simp only [PerSlot.get, hb, if_true, emitted_nil]
  refine ⟨?_, ?_⟩
  · have hn2 : isLatchEdge lv (.drive .en .low) = false := by simp [isLatchEdge, hn]
    simp only [latches, applyEvent, hn2, latches_append, q1, List.nil_append]
    simp [isLatchEdge, PerSlot.set]
  · simp only [levelAfter_drive, levelAfter_append]
    rfl

/-- A frame leaves RS as it was and EN low. -/
theorem levelAfter_frame4 (lv : PerSlot (Option Level)) (v : Byte) :
    (levelAfter lv (frame4Script v)).rs = lv.rs ∧ (levelAfter lv (frame4Script v)).en = some .low := ⟨rfl, rfl⟩

theorem levelAfter_frame8 (lv : PerSlot (Option Level)) (v : Byte) :
    (levelAfter lv (frame8Script v)).rs = lv.rs ∧ (levelAfter lv (frame8Script v)).en = some .low := ⟨rfl, rfl⟩

theorem latches_rwScript (w : Nat) (lv : PerSlot (Option Level)) (b : Bool) : latches w lv (rwScript b) = [] := by
  cases b <;> simp [rwScript, latches, isLatchEdge]

theorem levelAfter_rwScript (lv : PerSlot (Option Level)) (b : Bool) :
    (levelAfter lv (rwScript b)).rs = lv.rs ∧ (levelAfter lv (rwScript b)).en = lv.en := by
  cases b <;> simp [rwScript, levelAfter, applyEvent, PerSlot.set]

/-- The latches of one byte, and the control lines after it. -/
theorem latches_byteScript {s : State} {lv : PerSlot (Option Level)} {rs : Level} (b : Byte) (hr : lv.rs = some rs)
    (he : lv.en ≠ some .high) :
    latches s.width lv (byteScript s.eightBit b) = byteLatches s.eightBit rs b ∧
      (levelAfter lv (byteScript s.eightBit b)).rs = some rs ∧
      (levelAfter lv (byteScript s.eightBit b)).en = some .low := by
  cases h : s.eightBit
  · have hw : s.width = 4 := by simp [h]
    have e1 : byteScript false b = frame4Script (b >>> 4) ++ frame4Script (b &&& 0x0F) := rfl
    have e2 : byteLatches false rs b = [nibbleLatch rs (b >>> 4), nibbleLatch rs (b &&& 0x0F)] := rfl
    rw [e1, e2, hw]
    simp only [latches_append, levelAfter_append, nibbleLatch]
    rw [latches_frame4 _ he, latches_frame4 _ (by rw [(levelAfter_frame4 lv _).2]; simp)]
    simp [levelAfter_frame4, hr]
  · have hw : s.width = 8 := by simp [State.width, h]
    have e1 : byteScript true b = frame8Script b := rfl
    rw [e1, hw]
    simp [byteLatches, latches_frame8 _ he, levelAfter_frame8, hr]

theorem latches_commandScript (s : State) {lv : PerSlot (Option Level)} (b : Byte) (he : lv.en ≠ some .high) :
    latches s.width lv (s.commandScript b) = byteLatches s.eightBit .low b ∧
      (levelAfter lv (s.commandScript b)).rs = some .low ∧ (levelAfter lv (s.commandScript b)).en = some .low := by
  have key := latches_byteScript (s := s) (lv := levelAfter (lv.set .rs (some .low)) (rwScript s.bound.rw)) (rs := .low) b
    (by rw [(levelAfter_rwScript _ _).1]; rfl) (by rw [(levelAfter_rwScript _ _).2]; exact he)
  simp only [State.commandScript, commandScript, List.cons_append, latches, latches_append, levelAfter_append,
    latches_rwScript, levelAfter_drive, levelAfter_wait, isLatchEdge, applyEvent]
  exact ⟨by simp [key.1], key.2⟩

theorem latches_dataScript (s : State) {lv : PerSlot (Option Level)} (b : Byte) (he : lv.en ≠ some .high) :
    latches s.width lv (s.dataScript b) = byteLatches s.eightBit .high b ∧
      (levelAfter lv (s.dataScript b)).rs = some .high ∧ (levelAfter lv (s.dataScript b)).en = some .low := by
  have key := latches_byteScript (s := s) (lv := levelAfter (lv.set .rs (some .high)) (rwScript s.bound.rw)) (rs := .high) b
    (by rw [(levelAfter_rwScript _ _).1]; rfl) (by rw [(levelAfter_rwScript _ _).2]; exact he)
  simp only [State.dataScript, dataScript, List.cons_append, latches, latches_append, levelAfter_append,
    latches_rwScript, levelAfter_drive, levelAfter_wait, isLatchEdge, applyEvent]
  exact ⟨by simp [key.1], key.2⟩

/-! ## Whole pulses

Every script of the machine is `Tame`: its pulses stay whole whatever is bound, and it never raises RW. -/

/-- What is emitted of the script keeps its pulses whole, and RW is never driven high. -/
structure Tame (l : List Event) : Prop where
  whole : ∀ b : PerSlot Bool, pulsesWhole (emitted b l) = true
  writes : .drive .rw .high ∉ l

theorem pulsesWhole_cons (e : Event) (l : List Event) : pulsesWhole (e :: l) = true ↔
    (e = .drive .en .high → l.head? = some (.drive .en .low)) ∧ pulsesWhole l = true := by
  cases e with
  | wait d => simp [pulsesWhole]
  | drive p lv => cases p <;> cases lv <;> simp [pulsesWhole]

/-- After whole pulses, the pulses that follow decide. -/
theorem pulsesWhole_append {l m : List Event} (h : pulsesWhole l = true) :
    pulsesWhole (l ++ m) = true ↔ pulsesWhole m = true := by
  induction l with
  | nil => rfl
  | cons e l ih =>
    rw [pulsesWhole_cons] at h
    rw [List.cons_append, pulsesWhole_cons, ih h.2]
    exact ⟨fun hm => hm.2, fun hm => ⟨fun he => by simp [h.1 he], hm⟩⟩

theorem Tame.nil : Tame [] := ⟨fun _ => rfl, by simp⟩

theorem Tame.append {l m : List Event} (hl : Tame l) (hm : Tame m) : Tame (l ++ m) :=
  ⟨fun b => by rw [emitted_append, pulsesWhole_append (hl.whole b)]; exact hm.whole b, by simp [hl.writes, hm.writes]⟩

theorem Tame.flatten {ls : List (List Event)} (h : ∀ l ∈ ls, Tame l) : Tame ls.flatten := by
  induction ls with
  | nil => exact .nil
  | cons l ls ih =>
    exact (h l (List.mem_cons_self ..)).append (ih fun m hm => h m (List.mem_cons_of_mem _ hm))

theorem Tame.wait (d : Config.Duration) : Tame [.wait d] := ⟨fun _ => rfl, by simp⟩

theorem Tame.drive {p : Slot} {lv : Level} (he : p = .en → lv = .low) (hr : p = .rw → lv = .low) : Tame [.drive p lv] := by
  refine ⟨fun b => ?_, ?_⟩
  · rw [emitted_cons_drive]
    split
    · cases p <;> cases lv <;> first | rfl | exact absurd (he rfl) (by decide)
    · rfl
  · cases p <;> cases lv <;> first | decide | exact absurd (hr rfl) (by decide)

theorem Tame.line {p : Slot} (he : p ≠ .en) (hr : p ≠ .rw) (v : Byte) (i : Nat) : Tame [lineEvent p v i] :=
  .drive (fun h => absurd h he) (fun h => absurd h hr)

theorem Tame.pulse : Tame [.drive .en .high, .drive .en .low] := by
  refine ⟨fun b => ?_, by decide⟩
  rw [emitted_cons_drive]
  cases h : b.get .en <;> simp [emitted, reaches, h, pulsesWhole]

theorem Tame.frame4 (v : Byte) : Tame (frame4Script v) :=
  (Tame.drive (p := .en) (lv := .low) (fun _ => rfl) (fun _ => rfl)).append <|
    (Tame.line (by decide) (by decide) v 3).append <| (Tame.line (by decide) (by decide) v 2).append <|
    (Tame.line (by decide) (by decide) v 1).append <| (Tame.line (by decide) (by decide) v 0).append .pulse

theorem Tame.frame8 (v : Byte) : Tame (frame8Script v) :=
  (Tame.drive (p := .en) (lv := .low) (fun _ => rfl) (fun _ => rfl)).append <|
    (Tame.line (by decide) (by decide) v 7).append <| (Tame.line (by decide) (by decide) v 6).append <|
    (Tame.line (by decide) (by decide) v 5).append <| (Tame.line (by decide) (by decide) v 4).append <|
    (Tame.line (by decide) (by decide) v 3).append <| (Tame.line (by decide) (by decide) v 2).append <|
    (Tame.line (by decide) (by decide) v 1).append <| (Tame.line (by decide) (by decide) v 0).append .pulse

theorem Tame.rw (b : Bool) : Tame (rwScript b) := by
  cases b
  · exact .nil
  · exact .drive (fun _ => rfl) (fun _ => rfl)

theorem Tame.byte (e : Bool) (b : Byte) : Tame (byteScript e b) := by
  cases e
  · exact (Tame.frame4 _).append (.frame4 _)
  · exact .frame8 b

theorem Tame.command (s : State) (b : Byte) : Tame (s.commandScript b) :=
  (Tame.drive (p := .rs) (lv := .low) (fun _ => rfl) (fun _ => rfl)).append
    (((Tame.rw _).append (.byte _ b)).append (.wait _))

theorem Tame.data (s : State) (b : Byte) : Tame (s.dataScript b) :=
  (Tame.wait _).append ((Tame.drive (p := .rs) (lv := .high) (fun h => by cases h) (fun h => by cases h)).append
    ((Tame.rw _).append (.byte _ b)))

theorem Tame.handshake (s : State) : Tame s.handshakeScript := by
  unfold State.handshakeScript
  split
  · exact (((((Tame.command _ _).append (.wait _)).append (.command _ _)).append (.wait _)).append (.command _ _)).append
      (.wait _)
  · exact ((((((Tame.frame4 _).append (.wait _)).append (.frame4 _)).append (.wait _)).append (.frame4 _)).append
      (.wait _)).append (.frame4 _)

theorem Tame.pre (s : State) : Tame s.preScript := by
  unfold State.preScript
  split
  · exact .nil
  · refine .flatten fun l hl => ?_
    rw [List.eq_of_mem_replicate hl]
    exact (((Tame.command _ _).append (.wait _)).append (.command _ _)).append (.wait _)

theorem Tame.build (s : State) : Tame s.buildScript := by
  have hlow : Tame (.drive .rs .low :: .drive .en .low :: rwScript s.bound.rw) :=
    (Tame.drive (p := .rs) (lv := .low) (fun _ => rfl) (fun _ => rfl)).append
      ((Tame.drive (p := .en) (lv := .low) (fun _ => rfl) (fun _ => rfl)).append (.rw _))
  exact ((((((((Tame.pre _).append (.wait _)).append hlow).append (.handshake _)).append (.command _ _)).append
    (.command _ _)).append (.command _ _)).append (.command _ _)).append (.command _ _)

/-- Every instruction's script. -/
theorem Tame.scriptOf (i : Instr) (s : State) : Tame (scriptOf i s) := by
  cases i
  case build => exact .build s
  case send b rs => cases rs <;> first | exact .command _ _ | exact .data _ _
  case dataWrite b => exact .data _ _
  case write b => exact .data _ _
  case print t => exact .flatten fun l hl => by obtain ⟨b, -, rfl⟩ := List.mem_map.1 hl; exact .data _ _
  case scroll d n => exact .flatten fun l hl => by rw [List.eq_of_mem_replicate hl]; exact .command _ _
  case setCharacter k g =>
    exact (Tame.command _ _).append (.flatten fun l hl => by obtain ⟨b, -, rfl⟩ := List.mem_map.1 hl; exact .data _ _)
  case rawNibbleSync => exact .frame4 _
  case rawNibbleCommit => exact .frame4 _
  case backlightOn => exact .drive (fun h => by cases h) (fun h => by cases h)
  case backlightOff => exact .drive (fun h => by cases h) (fun h => by cases h)
  all_goals first | exact .nil | exact .command _ _

/-- Whole pulses leave EN low where they found it not high. -/
theorem levelAfter_en_of_whole {l : List Event} {lv : PerSlot (Option Level)} (h : pulsesWhole l = true)
    (he : lv.en ≠ some .high ∨ l.head? = some (.drive .en .low)) : (levelAfter lv l).en ≠ some .high := by
  induction l generalizing lv with
  | nil => simpa [levelAfter] using he
  | cons e l ih =>
    rw [pulsesWhole_cons] at h
    by_cases hh : e = .drive .en .high
    · exact ih h.2 (.inr (h.1 hh))
    · refine ih h.2 (.inl ?_)
      cases e with
      | wait d => simpa [applyEvent] using he
      | drive p v => cases p <;> cases v <;> simp [applyEvent, PerSlot.set] at he hh ⊢ <;> exact he

/-- A script that never raises RW leaves it not high. -/
theorem levelAfter_rw_of_writes {l : List Event} {lv : PerSlot (Option Level)} (h : .drive .rw .high ∉ l)
    (hr : lv.rw ≠ some .high) : (levelAfter lv l).rw ≠ some .high := by
  induction l generalizing lv with
  | nil => exact hr
  | cons e l ih =>
    simp only [List.mem_cons, not_or] at h
    refine ih h.2 ?_
    cases e with
    | wait d => exact hr
    | drive p v => cases p <;> cases v <;> first | exact absurd rfl h.1 | simp [applyEvent, PerSlot.set, hr]

/-- What is emitted drives bound slots only. -/
theorem levelAfter_unbound {b : PerSlot Bool} (l : List Event) (lv : PerSlot (Option Level)) {p : Slot}
    (hp : b.get p = false) : (levelAfter lv (emitted b l)).get p = lv.get p := by
  induction l generalizing lv with
  | nil => rfl
  | cons e l ih =>
    cases e with
    | wait d => rw [emitted_cons_wait]; exact ih lv
    | drive q v =>
      rw [emitted_cons_drive]
      split
      · rename_i hq
        rw [levelAfter_drive, ih, PerSlot.get_set, if_neg]
        rintro rfl
        simp [hp] at hq
      · exact ih lv

/-! ## Register bits -/

theorem getLsbD_putBits_display (v : Bool) :
    ∀ (c : Byte) (i : Nat), i < 8 → (putBits maskDisplay v c).getLsbD i = if i = 2 then v else c.getLsbD i := by
  cases v <;> decide

theorem getLsbD_putBits_cursor (v : Bool) :
    ∀ (c : Byte) (i : Nat), i < 8 → (putBits maskCursor v c).getLsbD i = if i = 1 then v else c.getLsbD i := by
  cases v <;> decide

/-- `maskBlink` and `maskAutoscroll` are both bit 0. -/
theorem getLsbD_putBits_blink (v : Bool) :
    ∀ (c : Byte) (i : Nat), i < 8 → (putBits maskBlink v c).getLsbD i = if i = 0 then v else c.getLsbD i := by
  cases v <;> decide

theorem getLsbD_putBits_layout (l : Layout) :
    ∀ (c : Byte) (i : Nat), i < 8 →
      (clearBits maskLayout c ||| layoutBits l).getLsbD i = if i = 1 then decide (l = .leftToRight) else c.getLsbD i := by
  cases l <;> decide

theorem clampCols_eq (c : Byte) : clampCols c = BitVec.ofNat 8 (min c.toNat 31) := by revert c; decide

theorem clampCols_le : ∀ c : Byte, clampCols c ≤ 31 := by decide

/-- Eight bindings are one update. -/
theorem registersAfter_withFullBus (s : State) :
    ∃ b : PerSlot Bool, registersAfter .withFullBus s = { s with bound := b, func := setBits maskWidth s.func } := by
  refine ⟨(registersAfter .withFullBus s).bound, ?_⟩
  simp [registersAfter, bindAll, State.bindSlot, State.setFunc]

/-- No operation sets a reserved bit (R20). -/
theorem registersAfter_reservedClear (i : Instr) {s : State} (h : s.reservedClear) : (registersAfter i s).reservedClear := by
  obtain ⟨hf, hc, hm⟩ := h
  have f1 : ∀ v : Byte, v &&& ~~~0x1C = 0 → ∀ b ∈ [maskWidth, maskSize, maskLines], clearBits b v &&& ~~~0x1C = 0 := by decide
  have f2 : ∀ v : Byte, v &&& ~~~0x1C = 0 → setBits maskWidth v &&& ~~~0x1C = 0 := by decide
  have f3 : ∀ (x : CellSize) (v : Byte), v &&& ~~~0x1C = 0 → (clearBits maskSize v ||| sizeBits x) &&& ~~~0x1C = 0 := by
    intro x; cases x <;> decide
  have f4 : ∀ (x : LineCount) (v : Byte), v &&& ~~~0x1C = 0 → (clearBits maskLines v ||| lineBits x) &&& ~~~0x1C = 0 := by
    intro x; cases x <;> decide
  have c1 : ∀ v : Byte, v &&& ~~~0x07 = 0 → ∀ b ∈ [maskDisplay, maskCursor, maskBlink],
      clearBits b v &&& ~~~0x07 = 0 ∧ setBits b v &&& ~~~0x07 = 0 ∧ ∀ x : Bool, putBits b x v &&& ~~~0x07 = 0 := by decide
  have m1 : ∀ v : Byte, v &&& ~~~0x03 = 0 →
      clearBits maskAutoscroll v &&& ~~~0x03 = 0 ∧ setBits maskAutoscroll v &&& ~~~0x03 = 0 ∧
        ∀ x : Bool, putBits maskAutoscroll x v &&& ~~~0x03 = 0 := by decide
  have m2 : ∀ (x : Layout) (v : Byte), v &&& ~~~0x03 = 0 → (clearBits maskLayout v ||| layoutBits x) &&& ~~~0x03 = 0 := by
    intro x; cases x <;> decide
  cases i
  case withHalfBus => exact ⟨f1 _ hf _ (by simp), hc, hm⟩
  case withFullBus =>
    obtain ⟨b, hb⟩ := registersAfter_withFullBus s
    rw [hb]
    exact ⟨f2 _ hf, hc, hm⟩
  case withSize v => exact ⟨f3 v _ hf, hc, hm⟩
  case withLines v => exact ⟨f4 v _ hf, hc, hm⟩
  case withLayout v => exact ⟨hf, hc, m2 v _ hm⟩
  case setLayout v => exact ⟨hf, hc, m2 v _ hm⟩
  case withDisplay v => exact ⟨hf, (c1 _ hc maskDisplay (by simp)).2.2 v, hm⟩
  case withCursor v => exact ⟨hf, (c1 _ hc maskCursor (by simp)).2.2 v, hm⟩
  case withBlink v => exact ⟨hf, (c1 _ hc maskBlink (by simp)).2.2 v, hm⟩
  case withAutoscroll v => exact ⟨hf, hc, (m1 _ hm).2.2 v⟩
  case displayOn => exact ⟨hf, (c1 _ hc _ (by simp)).2.1, hm⟩
  case displayOff => exact ⟨hf, (c1 _ hc _ (by simp)).1, hm⟩
  case cursorOn => exact ⟨hf, (c1 _ hc maskCursor (by simp)).2.1, hm⟩
  case cursorOff => exact ⟨hf, (c1 _ hc maskCursor (by simp)).1, hm⟩
  case blinkOn => exact ⟨hf, (c1 _ hc maskBlink (by simp)).2.1, hm⟩
  case blinkOff => exact ⟨hf, (c1 _ hc maskBlink (by simp)).1, hm⟩
  case autoscrollOn => exact ⟨hf, hc, (m1 _ hm).2.1⟩
  case autoscrollOff => exact ⟨hf, hc, (m1 _ hm).1⟩
  all_goals exact ⟨hf, hc, hm⟩

/-- The column count stays in range, and the table stays the one computed from it (R22, R115). -/
theorem registersAfter_tableOk (i : Instr) {s : State} (h : s.tableOk) : (registersAfter i s).tableOk := by
  cases i
  case withCols c => exact ⟨clampCols_le c, rfl⟩
  case withFullBus =>
    obtain ⟨b, hb⟩ := registersAfter_withFullBus s
    rw [hb]
    exact h
  all_goals exact h

end Sys2Proof.Machine
end

