-- ==== Sys2Proof/Tests/Slice0.lean ====
section
/-! SUPPORT. Tests.  Expected results are the spec's: 95_test_vectors.md (the vector is named before each), the tables of
30_encoding.md, or a hand calculation from the rule named.  Witnesses for the hypotheses of the statements stand at the end. -/

namespace Sys2Proof.Tests

open Sys2Proof.Machine

/-! ## Helpers -/

/-- The predicate holds of the next state. -/
def after (r : Result) (f : State → Bool) : Bool :=
  match r with
  | .next t => f t
  | _ => false

/-- The operation is refused for its phase. -/
def refusedForPhase (r : Result) : Bool :=
  match r with
  | .refused .outOfPhase => true
  | _ => false

/-- The next state; the old one where there is none (tests use it after operations that complete). -/
def nextOr (s : State) (r : Result) : State :=
  match r with
  | .next t => t
  | _ => s

/-- A latch as the spec writes it: RS and the number on the data lines; `none` where a line was never driven. -/
def latchValue (l : Latch) : Option (Level × Nat) :=
  match l.rs with
  | none => none
  | some rs => (l.data.foldl (fun n b => n.bind fun n => b.map fun b => 2 * n + if b = .high then 1 else 0) (some 0)).map (rs, ·)

/-- What the LCD latches of one operation. -/
def received (i : Instr) (s : State) : List (Option (Level × Nat)) :=
  match exec i s with
  | .next t => (latches s.width s.level (newEvents s t)).map latchValue
  | _ => []

/-- `D n, W m`: how many drives and waits an operation emits. -/
def counts (i : Instr) (s : State) : Nat × Nat :=
  match exec i s with
  | .next t =>
    ((newEvents s t).countP (fun e => match e with | .drive _ _ => true | .wait _ => false), (waitsOf (newEvents s t)).length)
  | _ => (0, 0)

/-- A latched command. -/
def cmd (n : Nat) : Option (Level × Nat) := some (.low, n)
/-- A latched data item. -/
def dat (n : Nat) : Option (Level × Nat) := some (.high, n)

/-- The state after reset with every slot of a list bound. -/
def withBound (l : List Slot) (s : State) : State := l.foldl (fun s p => s.bindSlot p) s

/-- "H4" of 95_test_vectors.md section 0, from its description in vector B1: levels `RS=L EN=L D7=L D6=L D5=H D4=L`. -/
def h4 : State :=
  { withBound [.d4, .d5, .d6, .d7] State.reset with
    phase := .rdy
    level := { State.reset.level with
      rs := some .low, en := some .low, d7 := some .low, d6 := some .low, d5 := some .high, d4 := some .low } }

/-- "F8": `func = 0x10`, every data line driven. -/
def f8 : State :=
  { withBound [.d0, .d1, .d2, .d3, .d4, .d5, .d6, .d7] State.reset with
    phase := .rdy
    func := 0x10
    level := { State.reset.level with
      rs := some .low, en := some .low, d7 := some .low, d6 := some .low, d5 := some .low, d4 := some .low
      d3 := some .low, d2 := some .low, d1 := some .high, d0 := some .low } }

/-! ## WellFormed: the one check, with terms it refuses -/

theorem test_short_glyph_is_ill_formed : (Instr.setCharacter 1 [0, 1, 2]).wellFormed = false := by decide
theorem test_long_glyph_is_ill_formed : (Instr.setCharacter 1 [0, 1, 2, 3, 4, 5, 6, 7, 8]).wellFormed = false := by decide
theorem test_glyph_of_eight_is_well_formed : (Instr.setCharacter 9 [0, 1, 2, 3, 4, 5, 6, 7]).wellFormed = true := by decide
theorem test_ill_formed_request_is_refused : step { h4 with pending := [.setCharacter 1 []] } = .refused .malformedRequest := rfl

/-! ## Decoding: words for every wire row, written out from 30_encoding.md R64 to R73; a host operation has no word (R80) -/

/-- R64 to R71. -/
theorem test_decode_commands :
    accepted (decode ⟨.cmd, 0b00000001⟩) = some .clearDisplay ∧
    accepted (decode ⟨.cmd, 0b00000010⟩) = some .returnHome ∧
    accepted (decode ⟨.cmd, 0b00000110⟩) = some (.entryModeSet true false) ∧
    accepted (decode ⟨.cmd, 0b00000101⟩) = some (.entryModeSet false true) ∧
    accepted (decode ⟨.cmd, 0b00001100⟩) = some (.displayControl true false false) ∧
    accepted (decode ⟨.cmd, 0b00001011⟩) = some (.displayControl false true true) ∧
    accepted (decode ⟨.cmd, 0b00011000⟩) = some (.cursorDisplayShift true false) ∧
    accepted (decode ⟨.cmd, 0b00010100⟩) = some (.cursorDisplayShift false true) ∧
    accepted (decode ⟨.cmd, 0b00110000⟩) = some (.functionSet true false false) ∧
    accepted (decode ⟨.cmd, 0b00101100⟩) = some (.functionSet false true true) ∧
    accepted (decode ⟨.cmd, 0b01001000⟩) = some (.setCgramAddr 8) ∧
    accepted (decode ⟨.cmd, 0b11000011⟩) = some (.setDdramAddr 0x43) := by decide

/-- R72, R73. -/
theorem test_decode_data_and_nibbles :
    accepted (decode ⟨.data, 0b01001000⟩) = some (.dataWrite 0x48) ∧
    accepted (decode ⟨.nib, 0b0011⟩) = some .rawNibbleSync ∧
    accepted (decode ⟨.nib, 0b0010⟩) = some .rawNibbleCommit := by decide

/-- R76(b): the bytes with no meaning, rejected by name. -/
theorem test_bytes_without_meaning :
    decode ⟨.cmd, 0x00⟩ = .error (.noCommand 0x00) ∧ decode ⟨.cmd, 0x11⟩ = .error (.noCommand 0x11) ∧
      decode ⟨.cmd, 0x23⟩ = .error (.noCommand 0x23) ∧ decode ⟨.nib, 0x1⟩ = .error (.noNibble 0x1) := ⟨rfl, rfl, rfl, rfl⟩

/-- R80: a host operation is a value, and has no bits. -/
theorem test_host_operations_have_no_code :
    encode .build = none ∧ encode (.send 0x28 false) = none ∧ decode ⟨.host, 0x0E⟩ = .error .noEncoding ∧
      decodeTableWord 8 0x11 = none ∧ decodeTableWord 8 0x00 = none := by decide

/-- Bare words of the table's wire rows: a byte with RS low, a nibble as 4 bits or as a whole byte. -/
theorem test_table_words :
    decodeTableWord 8 0x01 = some .clearDisplay ∧ decodeTableWord 8 0x30 = some (.functionSet true false false) ∧
      decodeTableWord 4 0x2 = some .rawNibbleCommit ∧ decodeTableWord 8 0x03 = some .rawNibbleSync := by decide

/-- R76(c): `0x11` belongs to the shift class. -/
theorem test_command_class : commandClass 0x11 = .shift ∧ commandClass 0x80 = .ddram ∧ commandClass 0x00 = .noCommand := by decide

/-- The next step runs a placed word. -/
theorem test_fetch_word :
    after (step (State.reset.withFetchWord 8 0x88)) (fun t => t.pending = [] ∧ t.level.rs = some .low ∧ t.err = .missingPin .d4) =
      true := by decide

/-! ## Transmission (vectors T1 to T14) -/

theorem test_T1_update_four_bit : newEvents h4 (update 0x03 h4) =
    [.drive .en .low, .drive .d7 .low, .drive .d6 .low, .drive .d5 .high, .drive .d4 .high, .drive .en .high,
      .drive .en .low] := by decide
theorem test_T2_update_eight_bit : (latches 8 f8.level (newEvents f8 (update 0xA5 f8))).map latchValue = [cmd 0xA5] := by decide
theorem test_T3_update_ignores_high_bits : update 0xF3 h4 = update 0x03 h4 := by decide
theorem test_T4_send : received (.send 0x28 false) h4 = [cmd 0x2, cmd 0x8] ∧ counts (.send 0x28 false) h4 = (15, 1) := by decide
theorem test_T5_send_with_rw : counts (.send 0x28 false) (h4.bindSlot .rw) = (16, 1) ∧
    after (exec (.send 0x28 false) (h4.bindSlot .rw)) (fun t => t.level.rw = some .low) = true := by decide
theorem test_T6_write : received (.write 0x48) f8 = [dat 0x48] ∧
    after (exec (.write 0x48) f8) (fun t => (newEvents f8 t).take 2 = [.wait .chr, .drive .rs .high]) = true := by decide
theorem test_T14_command_sends_any_byte : received (.command 0xFF) f8 = [cmd 0xFF] := by decide

/-- T8: D4 unbound. -/
theorem test_T8_unbound_data_line :
    after (exec (.command 0x01) { h4 with bound := { h4.bound with d4 := false }, level := { h4.level with d4 := none } })
      (fun t => t.err = .missingPin .d4 ∧ t.level.d4 = none ∧ (newEvents h4 t).length = 14) = true := by decide

/-- T9: EN unbound: it never rises, so nothing is latched. -/
theorem test_T9_unbound_enable :
    let s := { h4 with bound := { h4.bound with en := false }, level := { h4.level with en := none } }
    received (.command 0x01) s = [] ∧ counts (.command 0x01) s = (9, 1) ∧
      after (exec (.command 0x01) s) (fun t => t.err = .missingPin .en) = true := by decide

/-- T11: RS and D6 unbound; D6 is attempted later. -/
theorem test_T11_last_unbound_wins :
    after (exec (.write 0xFF) (withBound [.d4, .d5, .d7] { State.reset with phase := .rdy, bound := { State.reset.bound with rs := false } }))
      (fun t => t.err = .missingPin .d6) = true := by decide

theorem test_T12_pulse_latches_again : (latches 4 h4.level (newEvents h4 (pulse h4))).map latchValue = [cmd 0x2] := by decide

/-- The latch function's corner (c): of two rising and two falling edges, one latch. -/
theorem test_latch_needs_a_falling_edge :
    (latches 4 (PerSlot.fill none) [.drive .en .high, .drive .en .high, .drive .en .low, .drive .en .low]).length = 1 ∧
      latches 4 (PerSlot.fill none) [.drive .en .low, .drive .d4 .high, .drive .en .low] = [] := by decide

/-! ## Wire items: the byte on the lines (R64 to R73) -/

theorem test_wire_clearDisplay : received .clearDisplay f8 = [cmd 0x01] := by decide
theorem test_wire_returnHome : received .returnHome h4 = [cmd 0x0, cmd 0x2] := by decide
theorem test_wire_entryModeSet : received (.entryModeSet true false) f8 = [cmd 0x06] := by decide
theorem test_wire_displayControl : received (.displayControl true false true) f8 = [cmd 0x0D] := by decide
theorem test_wire_cursorDisplayShift : received (.cursorDisplayShift true true) f8 = [cmd 0x1C] := by decide
theorem test_wire_functionSet : received (.functionSet true true false) f8 = [cmd 0x38] := by decide
theorem test_wire_setCgramAddr : received (.setCgramAddr 0x38) f8 = [cmd 0x78] := by decide
theorem test_wire_setDdramAddr : received (.setDdramAddr 0x43) f8 = [cmd 0xC3] := by decide
theorem test_wire_dataWrite : received (.dataWrite 0x48) h4 = [dat 0x4, dat 0x8] := by decide
theorem test_wire_nibbles : received .rawNibbleSync h4 = [cmd 0x3] ∧ received .rawNibbleCommit h4 = [cmd 0x2] ∧
    counts .rawNibbleSync h4 = (7, 0) := by decide

/-! ## Configuration (vectors K1 to K26) -/

theorem test_K1_bind : after (exec (.bind .d5) State.reset) (fun t => t.bound.d5 ∧ ¬ t.bound.d4 ∧ t.func = 0x00) = true := by decide
theorem test_K2_withRw : after (exec .withRw State.reset) (fun t => t.bound.rw) = true := by decide
theorem test_K5_full_then_half :
    after (exec .withHalfBus (nextOr State.reset (exec .withFullBus State.reset)))
      (fun t => t.func = 0x00 ∧ t.bound.d0 ∧ t.bound.d7) = true := by decide
theorem test_K4_withFullBus : after (exec .withFullBus State.reset) (fun t => t.func = 0x10 ∧ t.bound.d0 ∧ t.bound.d3) = true := by decide
theorem test_K9_size_over_lines : after (exec (.withSize .dots5x10) { State.reset with func := 0x08 }) (fun t => t.func = 0x0C) = true := by
  decide
theorem test_K11_lines_over_size : after (exec (.withLines .oneLine) { State.reset with func := 0x04 }) (fun t => t.func = 0x00) = true := by
  decide
theorem test_K12_withLines : after (exec (.withLines .fourLines) { State.reset with func := 0x10 }) (fun t => t.func = 0x1C) = true := by
  decide
theorem test_K14_withCols : after (exec (.withCols 20) State.reset) (fun t => t.cols = 20 ∧ t.offsets = ⟨0x00, 0x40, 0x14, 0x54⟩) = true := by
  decide
theorem test_K16_withCols_saturates :
    after (exec (.withCols 32) State.reset) (fun t => t.cols = 31 ∧ t.offsets = ⟨0x00, 0x40, 0x1F, 0x5F⟩) = true := by decide
theorem test_K17_withLayout : after (exec (.withLayout .rightToLeft) State.reset) (fun t => t.mode = 0x00) = true := by decide
theorem test_K18_withDisplay : after (exec (.withDisplay false) State.reset) (fun t => t.ctrl = 0x00) = true := by decide
theorem test_K19_withCursor : after (exec (.withCursor true) State.reset) (fun t => t.ctrl = 0x06) = true := by decide
theorem test_K20_withBlink : after (exec (.withBlink true) State.reset) (fun t => t.ctrl = 0x05) = true := by decide
theorem test_K22_withAutoscroll : after (exec (.withAutoscroll true) State.reset) (fun t => t.mode = 0x03) = true := by decide
theorem test_K24_withBacklight : after (exec .withBacklight State.reset) (fun t => t.bound.bl ∧ t.level.bl = none) = true := by decide
theorem test_K25_withReliableInit :
    after (exec (.withReliableInit 500) { State.reset with reliable := some 10000 }) (fun t => t.reliable = some 500 ∧ t.trace = []) = true := by
  decide
theorem test_K26_configuration_refused_when_ready : refusedForPhase (exec (.withCols 20) f8) = true := by decide

/-! ## Initialization (vectors B1 to B13) -/

/-- B1. -/
theorem test_B1_build_four_bit :
    let s := withBound [.d4, .d5, .d6, .d7] State.reset
    received .build s = [cmd 3, cmd 3, cmd 3, cmd 2, cmd 2, cmd 0, cmd 0, cmd 0xC, cmd 0, cmd 6, cmd 0, cmd 1, cmd 0, cmd 2] ∧
      counts .build s = (105, 9) ∧
      after (exec .build s) (fun t => { t with trace := [] } = h4) = true := by decide +kernel

/-- B2, B8, B11, B6: counts and errors. -/
theorem test_B2_B6_build_counts :
    counts .build (withBound [.d0, .d1, .d2, .d3, .d4, .d5, .d6, .d7] { State.reset with func := 0x18 }) = (98, 12) ∧
      counts .build State.reset = (49, 9) ∧ after (exec .build State.reset) (fun t => t.err = .invalidBus) = true := by decide +kernel

/-- B3: the pre-step, at the default count and at two others; every wait of the pre-step stands before the power-up wait. -/
theorem test_B3_pre_step_repeats :
    let waits (n : Nat) : List Config.Duration :=
      waitsOf (nextOr State.reset (exec .build { State.reset with reliable := some 1000, repeats := n })).trace
    (waits 3).take 13 = [.cmd, .us 1000, .cmd, .us 1000, .cmd, .us 1000, .cmd, .us 1000, .cmd, .us 1000, .cmd, .us 1000, .powerup] ∧
      (waits 1).take 5 = [.cmd, .us 1000, .cmd, .us 1000, .powerup] ∧ (waits 0).head? = some .powerup := by decide +kernel

/-! ## Control operations (vectors O1 to O23) -/

theorem test_O2_clear_home : received .clear f8 = [cmd 0x01] ∧ received .home h4 = [cmd 0x0, cmd 0x2] := by decide

/-- O1, two lines, columns 16: row 5 is row 1; and 192 in row 1 wraps. -/
theorem test_O1_setPosition_two_lines :
    received (.setPosition 0 5) { f8 with func := 0x18 } = [cmd 0xC0] ∧
      received (.setPosition 192 1) { f8 with func := 0x18 } = [cmd 0x80] := by decide

/-- O1, four lines: row 2 is `cols`; column 255 in row 3 wraps. -/
theorem test_O1_setPosition_four_lines :
    received (.setPosition 0 2) { f8 with func := 0x1C } = [cmd 0x90] ∧
      received (.setPosition 255 3) { f8 with func := 0x1C } = [cmd 0xCF] ∧
      received (.setPosition 200 1) f8 = [cmd 0xC8] := by decide

theorem test_O3_scroll_left : received (.scroll .left 2) f8 = [cmd 0x18, cmd 0x18] ∧ counts (.scroll .left 2) f8 = (24, 2) := by decide
theorem test_O4_scroll_right : received (.scroll .right 3) h4 = [cmd 1, cmd 0xC, cmd 1, cmd 0xC, cmd 1, cmd 0xC] := by decide
theorem test_O6_displayOn : received .displayOn f8 = [cmd 0x0C] ∧ after (exec .displayOn f8) (fun t => t.ctrl = 0x04) = true := by decide
theorem test_O7_displayOff : received .displayOff f8 = [cmd 0x08] ∧ after (exec .displayOff f8) (fun t => t.ctrl = 0x00) = true := by decide
theorem test_O8_cursorOn : received .cursorOn f8 = [cmd 0x0E] ∧ after (exec .cursorOn f8) (fun t => t.ctrl = 0x06) = true := by decide
theorem test_O8_cursorOff : received .cursorOff f8 = [cmd 0x0C] := by decide
theorem test_O9_blinkOn : received .blinkOn f8 = [cmd 0x0D] ∧ after (exec .blinkOn f8) (fun t => t.ctrl = 0x05) = true := by decide
theorem test_O10_blinkOff : after (exec .blinkOff { f8 with ctrl := 0x05 }) (fun t => t.ctrl = 0x04) = true := by decide
theorem test_O12_autoscrollOn : received .autoscrollOn f8 = [cmd 0x07] ∧ after (exec .autoscrollOn f8) (fun t => t.mode = 0x03) = true := by decide
theorem test_O12_autoscrollOff : received .autoscrollOff f8 = [cmd 0x06] := by decide
theorem test_O13_setLayout : received (.setLayout .rightToLeft) f8 = [cmd 0x04] ∧
    after (exec (.setLayout .rightToLeft) f8) (fun t => t.mode = 0x00) = true := by decide

/-- O16: slot 9 acts as 1, and the rows are not masked. -/
theorem test_O16_setCharacter :
    received (.setCharacter 9 [0xFF, 0xE0, 0x1F, 0x00, 0x01, 0x02, 0x03, 0x04]) f8 =
      [cmd 0x48, dat 0xFF, dat 0xE0, dat 0x1F, dat 0x00, dat 0x01, dat 0x02, dat 0x03, dat 0x04] := by decide +kernel

theorem test_O20_print_truncates : received (.print [0x141, 0x20AC, 0x00]) f8 = [dat 0x41, dat 0xAC, dat 0x00] := by decide
theorem test_O19_print_in_four_bits : received (.print [0x48, 0x49]) h4 = [dat 4, dat 8, dat 4, dat 9] := by decide
theorem test_O22_backlightOn : after (exec .backlightOn (f8.bindSlot .bl)) (fun t => t.level.bl = some .high ∧ newEvents f8 t = [.drive .bl .high]) = true := by
  decide
theorem test_O22_backlightOff : after (exec .backlightOff (f8.bindSlot .bl)) (fun t => t.level.bl = some .low) = true := by decide
theorem test_O23_backlight_unbound : after (exec .backlightOn f8) (fun t => t.trace = [] ∧ t.err = .missingPin .bl) = true := by decide
theorem test_X7_clear_refused_in_configuration : refusedForPhase (exec .clear State.reset) = true := by decide

/-! ## Accessors (end of section 2.4) -/

theorem test_accessors_in_h4 :
    (nextOr h4 (exec .getDisplay h4)).answers = [.bool true] ∧ (nextOr h4 (exec .getCursor h4)).answers = [.bool false] ∧
    (nextOr h4 (exec .getBlink h4)).answers = [.bool false] ∧ (nextOr h4 (exec .getAutoscroll h4)).answers = [.bool false] ∧
    (nextOr h4 (exec .getLayout h4)).answers = [.layout .leftToRight] ∧ (nextOr h4 (exec .lines h4)).answers = [.lines .oneLine] ∧
    (nextOr h4 (exec .size h4)).answers = [.size .dots5x8] ∧ (nextOr h4 (exec .busWidth h4)).answers = [.width 4] ∧
    (nextOr h4 (exec .error h4)).answers = [.error .noError] := by decide

/-- The overlay: `0x04` is one line with 5x10 cells, `0x0C` is four lines. -/
theorem test_accessors_on_the_shared_bit :
    lineCountOf 0x04 = .oneLine ∧ cellSizeOf 0x04 = .dots5x10 ∧ lineCountOf 0x0C = .fourLines ∧ lineCountOf 0x18 = .twoLines := by decide

/-! ## Witnesses: concrete states and operands that meet the hypotheses of each statement -/

/-- F8 in configuration again: 8-bit, RS, EN and every data line bound. -/
def cfg8 : State := { f8 with phase := .cfg }
/-- The state after reset with the half bus bound: 4-bit. -/
def cfg4 : State := withBound [.d4, .d5, .d6, .d7] State.reset
/-- A partly bound bus. -/
def partBus : State := withBound [.d5, .d6, .d7] State.reset

theorem wired_h4 : h4.wired := ⟨rfl, rfl, rfl, rfl, rfl, rfl, fun h => by cases h⟩
theorem wired_f8 : f8.wired := ⟨rfl, rfl, rfl, rfl, rfl, rfl, fun _ => ⟨rfl, rfl, rfl, rfl⟩⟩
theorem wired_cfg4 : cfg4.wired := ⟨rfl, rfl, rfl, rfl, rfl, rfl, fun h => by cases h⟩
theorem wired_cfg8 : cfg8.wired := ⟨rfl, rfl, rfl, rfl, rfl, rfl, fun _ => ⟨rfl, rfl, rfl, rfl⟩⟩

theorem witness_DriveIsGuardedByBound : h4.bound.get .d4 = true ∧ h4.bound.get .d3 = false := ⟨rfl, rfl⟩
theorem witness_PulseIsHighThenLowOnEnable : h4.bound.en = true ∧ (State.construct [] 0 0 0 3).bound.en = false := ⟨rfl, rfl⟩
theorem witness_FramesPresentTheirBitsInOrder : (0xF3 : Byte) &&& 0x0F = 0x03 &&& 0x0F := by decide
theorem witness_UpdatePicksTheFrameByTheWidthFlag : h4.wired ∧ f8.wired := ⟨wired_h4, wired_f8⟩
theorem witness_BindersSetBoundAndWidth : State.reset.phase = .cfg := rfl
theorem witness_WithColsSaturatesAndRecomputesTheTable : cfg4.phase = .cfg := rfl
theorem witness_SizeAndLineSettersWriteTheirBits : cfg8.phase = .cfg := rfl
theorem witness_AttributeSettersWriteOneBit : partBus.phase = .cfg := rfl
theorem witness_ReliableInitIsOnlyRecorded : State.reset.phase = .cfg := rfl
theorem witness_ConfigurationEmitsNothing :
    phaseNeeded .withRw = some .cfg ∧ Instr.withRw ≠ .build ∧ ∃ t, exec .withRw State.reset = .next t :=
  ⟨rfl, by decide, _, rfl⟩
theorem witness_BuildRunsTheWholeSequence : cfg4.phase = .cfg ∧ cfg4.busBound = true ∧ State.reset.busBound = false := ⟨rfl, rfl, rfl⟩
theorem witness_FourBitHandshakeSendsThreeSyncsAndACommit : cfg4.func.getLsbD 4 = false := rfl
theorem witness_ValidationFailsOnlyOnTotalAbsence :
    (partBus.phase = .cfg ∧ (∃ p ∈ partBus.activeData, partBus.bound.get p = true) ∧
      ∃ p ∈ partBus.activeData, partBus.bound.get p = false) ∧
    (State.reset.phase = .cfg ∧ ∀ p ∈ State.reset.activeData, State.reset.bound.get p = false) ∧
    (Instr.backlightOn ≠ .build ∧
      ∃ t, exec .backlightOn { (f8.bindSlot .bl) with err := .invalidBus } = .next t ∧ t.err = .invalidBus) ∧
    after (exec .build { cfg4 with err := .invalidBus }) (fun t => t.err = .invalidBus) = true :=
  ⟨by decide, by decide, ⟨by decide, _, rfl, rfl⟩, by decide +kernel⟩
theorem witness_SequencerWalkEqualsBuild : cfg8.phase = .cfg := rfl
theorem witness_BuildLatchesAreTheHandshakeThenTheRegisters :
    (cfg4.phase = .cfg ∧ cfg4.wired ∧ cfg4.reliable = none ∧ cfg4.level.en ≠ some .high) ∧
      (cfg8.phase = .cfg ∧ cfg8.wired ∧ cfg8.reliable = none ∧ cfg8.level.en ≠ some .high) :=
  ⟨⟨rfl, wired_cfg4, rfl, by decide⟩, rfl, wired_cfg8, rfl, by decide⟩
theorem witness_BuildWaitsStandAtTheProtocolPoints : cfg4.phase = .cfg ∧ (cfg4.setReliable 1000).phase = .cfg := ⟨rfl, rfl⟩
theorem witness_BuildLeavesTheLinesAtTheLastFrame :
    (cfg4.phase = .cfg ∧ cfg4.wired) ∧ (cfg8.bindSlot .rw).phase = .cfg ∧ (cfg8.bindSlot .rw).wired ∧
      (cfg8.bindSlot .rw).bound.rw = true :=
  ⟨⟨rfl, wired_cfg4⟩, rfl, wired_cfg8, rfl⟩
theorem witness_SendTransmitsOneByte : h4.phase = .rdy ∧ f8.phase = .rdy := ⟨rfl, rfl⟩
theorem witness_SendMakesTwoCyclesOrOne : h4.phase = .rdy ∧ h4.bound.en = true ∧ h4.level.en ≠ some .high := by decide
theorem witness_SendLatchesTheByte : f8.phase = .rdy ∧ f8.wired ∧ f8.level.en ≠ some .high := ⟨rfl, wired_f8, by decide⟩
theorem witness_ClearAndHomeSendTheirCommand : h4.phase = .rdy := rfl
theorem witness_SetPositionSendsTheClampedAddress : { f8 with func := 0x1C }.phase = .rdy := rfl
theorem witness_ScrollSendsExactlyNShiftCommands : f8.phase = .rdy := rfl
theorem witness_ControlTogglesWriteOneBitAndPush : f8.phase = .rdy := rfl
theorem witness_ModeTogglesWriteOneBitAndPush : h4.phase = .rdy := rfl
theorem witness_ToggleOnThenOffClearsTheBit :
    f8.phase = .rdy ∧ { f8 with ctrl := 0x00 }.ctrl.getLsbD 2 = false ∧ f8.ctrl.getLsbD 1 = false ∧ f8.ctrl.getLsbD 0 = false ∧
      f8.mode.getLsbD 0 = false := by decide
theorem witness_SetCharacterSendsTheAddressThenTheRows : f8.phase = .rdy := rfl
theorem witness_PrintSendsEachCodeAsOneByte : h4.phase = .rdy := rfl
theorem witness_BacklightDrivesItsLineOrRecordsIt :
    (f8.bindSlot .bl).phase = .rdy ∧ (f8.bindSlot .bl).bound.bl = true ∧ f8.phase = .rdy ∧ f8.bound.bl = false := ⟨rfl, rfl, rfl, rfl⟩
theorem witness_LinesReadsBackWhatWithLinesSet : cfg4.phase = .cfg := rfl
theorem witness_OperationsCompleteExactlyInTheirPhase :
    phaseNeeded .error = none ∧ phaseNeeded .clear = some h4.phase ∧ phaseNeeded .clear = some .rdy ∧ cfg4.phase ≠ .rdy := by
  decide
theorem witness_StepRunsTheOldestRequest :
    h4.pending = [] ∧ { h4 with pending := [.clear, .home] }.pending = .clear :: [.home] ∧ Instr.clear.wellFormed = true ∧
      (Instr.setCharacter 0 []).wellFormed = false := by decide
theorem witness_FetchWordIsRunByTheNextStep :
    decodeTableWord 4 0x3 = some .rawNibbleSync ∧
      decodeTableWord 8 0x88 = some (.setDdramAddr 8) := by decide
theorem witness_OnlyBuildLeavesConfiguration :
    (∃ t, exec .build cfg4 = .next t) ∧ (∃ t, exec .withRw cfg4 = .next t) ∧ ∃ t, exec .clear h4 = .next t :=
  ⟨⟨_, rfl⟩, ⟨_, rfl⟩, _, rfl⟩
theorem witness_ReadyFreezesTheConfiguration :
    (∃ t, step { h4 with pending := [.clear] } = .next t) ∧ h4.phase = .rdy ∧ h4.bound.get .d4 = true :=
  ⟨⟨_, rfl⟩, rfl, rfl⟩
theorem witness_RecordingWritesOnlyErrAndGoesOn :
    let s : State := withBound [.d5] { State.reset with phase := .rdy }
    (∃ t, exec .clear s = .next t) ∧ ∃ u, exec .clear { s with bound := PerSlot.fill true } = .next u := ⟨⟨_, rfl⟩, _, rfl⟩
theorem witness_ErrorIsNeverCleared :
    ∃ t, step { h4 with err := .invalidBus, pending := [.clear] } = .next t ∧ ErrorCode.invalidBus ≠ .noError :=
  ⟨_, rfl, by decide⟩
theorem witness_LastUnboundSlotIsTheVisibleError :
    h4.phase = .rdy ∧ { h4 with bound := { h4.bound with d4 := false } }.phase = .rdy ∧
      { h4 with bound := { h4.bound with rs := false } }.phase = .rdy ∧
      { h4 with bound := { h4.bound with en := false } }.phase = .rdy := ⟨rfl, rfl, rfl, rfl⟩
theorem witness_WiredMachineRecordsNoError :
    (h4.wired ∧ ∃ t, exec .clear h4 = .next t) ∧ f8.wired ∧ (∃ t, exec .backlightOn (f8.bindSlot .bl) = .next t) ∧
      (f8.bindSlot .bl).bound.bl = true :=
  ⟨⟨wired_h4, _, rfl⟩, wired_f8, ⟨_, rfl⟩, rfl⟩
theorem witness_NoOperationReadsErrLevelOrOutputs :
    h4.sameButObserved { h4 with err := .invalidBus, level := PerSlot.fill none } ∧ (∃ t, exec .clear h4 = .next t) ∧
      exec .build h4 = .refused .outOfPhase :=
  ⟨rfl, ⟨_, rfl⟩, rfl⟩
theorem witness_ErrorCodesAreDistinct :
    (ErrorCode.missingPin .d4).code = (ErrorCode.missingPin .d4).code ∧ (ErrorCode.missingPin .rs).code = 0x0 ∧
      (ErrorCode.missingPin .d4).code = 0x7 ∧ (ErrorCode.missingPin .bl).code = 0xB := by decide
theorem witness_ConstructionMeetsTheInvariant :
    (0x18 : Byte) &&& ~~~0x1C = 0 ∧ (0x07 : Byte) &&& ~~~0x07 = 0 ∧ (0x03 : Byte) &&& ~~~0x03 = 0 := by decide

theorem reset_inv : State.reset.Inv where
  reserved := by unfold State.reservedClear; decide
  table := by unfold State.tableOk; decide
  undriven := fun p _ => by cases p <;> rfl
  idle := by unfold State.linesIdle; decide
  replay := rfl

theorem witness_StepKeepsTheInvariant :
    { State.reset with pending := [.withFullBus, .build] }.Inv ∧
      ∃ t, step { State.reset with pending := [.withFullBus, .build] } = .next t :=
  ⟨⟨reset_inv.reserved, reset_inv.table, reset_inv.undriven, reset_inv.idle, reset_inv.replay⟩, _, rfl⟩
theorem witness_StepKeepsTheHostInvariant :
    { State.reset with pending := [.withFullBus, .build] }.HostInv ∧
      ∃ t, step { State.reset with pending := [.withFullBus, .build] } = .next t :=
  ⟨⟨by decide, fun _ => ⟨rfl, rfl⟩, fun _ => rfl⟩, _, rfl⟩
theorem witness_StepKeepsPulsesWhole :
    pulsesWhole (pulse h4).trace = true ∧ ∃ t, step { pulse h4 with pending := [.clear] } = .next t := ⟨rfl, _, rfl⟩
theorem witness_StepAppendsOnlyBoundWrites : ∃ t, step { h4 with pending := [.print [0x48]] } = .next t := ⟨_, rfl⟩
theorem witness_DecodeEncodeRoundTrip :
    (Instr.setDdramAddr 0x7F).isHost = false ∧ (Instr.functionSet true true true).isHost = false ∧
      (Instr.setCharacter 7 [0, 1, 2, 3, 4, 5, 6, 7]).isHost = true := by decide
theorem witness_AcceptedCodeIsCanonical : decode ⟨.cmd, 0x38⟩ = .ok (.functionSet true true false) := rfl
theorem witness_CommandRowsAreDisjointAndComplete : decode ⟨.cmd, 0x80⟩ = .ok (.setDdramAddr 0) := rfl
/-- Every `runAll` of the statement completes here, with eight rows, an empty text and a scroll by none among them. -/
theorem witness_HostOperationsExpandIntoWireItems :
    f8.phase = .rdy ∧ f8.reservedClear ∧ decode ⟨.cmd, 0x0C⟩ = .ok (.displayControl true false false) ∧
      (∃ t, runAll (.setCgramAddr 0x38 :: [0, 1, 2, 3, 4, 5, 6, 7].map .dataWrite) f8 = .next t) ∧
      runAll [] f8 = .next f8 ∧ ∃ t, runAll (List.replicate 2 (.cursorDisplayShift true true)) f8 = .next t :=
  ⟨rfl, by unfold State.reservedClear; decide, rfl, ⟨_, rfl⟩, rfl, _, rfl⟩
theorem witness_OperationsTakeTheirLeastTime : h4.phase = .rdy ∧ f8.phase = .rdy := ⟨rfl, rfl⟩
theorem witness_PseudoOperationsAreTheirExpansions :
    (∃ t, runAll [.bind .d4, .bind .d5, .bind .d6, .bind .d7] { State.reset with func := 0x00 } = .next t) ∧ f8.phase = .rdy :=
  ⟨⟨_, rfl⟩, rfl⟩
/-- A sequence ends where an instruction is refused. -/
theorem test_runAll_ends_at_a_refusal :
    refusedForPhase (runAll [.clear, .withRw, .home] f8) = true := by decide +kernel
theorem witness_BuildTakesItsLeastTime : (∃ t, exec .build cfg4 = .next t) ∧ ∃ t, exec .build (cfg8.setReliable 1000) = .next t :=
  ⟨⟨_, rfl⟩, _, rfl⟩

end Sys2Proof.Tests
end

/-! Proofs for the family of 00_scope.md.  First what a step runs (R2), then the rules by which a host operation of phase `RDY` is
a run of wire items (R3): what a wire item does, what a run of one shape of item does, and the byte each operation sends as the
code of an item (30_encoding.md section 2). -/

namespace Sys2Proof.Machine

/-! ## The step -/

/-- With no request the block idles (R205). -/
theorem step_of_pending_nil {s : State} (h : s.pending = []) : step s = .next s := by
  simp [step, h]

/-- What a step does with the oldest request. -/
theorem step_of_pending_cons {s : State} {i : Instr} {rest : List Instr} (h : s.pending = i :: rest) :
    step s = if i.wellFormed then exec i (s.setPending rest) else .refused .malformedRequest := by
  simp [step, h]

/-- Settles O38, by the two forms the request list can have. -/
theorem stepRunsTheOldestRequest : Obligations.StepRunsTheOldestRequest := by
  intro s
  refine ⟨step_of_pending_nil, fun i rest h => ⟨fun hw => ?_, fun hw => ?_⟩⟩
  · rw [step_of_pending_cons h, if_pos hw]
    rfl
  · rw [step_of_pending_cons h, if_neg (by simp [hw])]

/-! ## What a wire item does -/

/-- An accepted command byte is the code of the instruction it is read as. -/
theorem encode_of_decode_cmd {b : Byte} {i : Instr} (h : decode ⟨.cmd, b⟩ = .ok i) : encode i = some ⟨.cmd, b⟩ := by
  have key : ∀ b : Byte, ∀ i ∈ accepted (decodeCommand b), encode i = some ⟨.cmd, b⟩ := by decide
  have ha : accepted (decodeCommand b) = some i := by rw [show decodeCommand b = .ok i from h]; rfl
  exact key b i ha

/-- A command item is the transmission of its byte with RS low (R62). -/
theorem exec_of_encode_cmd {b : Byte} {i : Instr} (h : encode i = some ⟨.cmd, b⟩) (s : State) :
    exec i s = .next (command b s) := by
  cases i <;> cases h <;> rfl

/-- A data item is the transmission of its byte with RS high (R72). -/
theorem exec_dataWrite (b : Byte) (s : State) : exec (.dataWrite b) s = .next (write b s) := rfl

/-! ## Runs of wire items -/

/-- Data items in order are their bytes written in order. -/
theorem runAll_dataWrite (l : List Byte) (s : State) : runAll (l.map .dataWrite) s = .next (writeAll l s) := by
  induction l generalizing s with
  | nil => rfl
  | cons b l ih =>
    rw [List.map_cons, runAll_cons_next (exec_dataWrite b s), ih]
    rfl

/-- One instruction that completes everywhere, repeated. -/
theorem runAll_replicate {i : Instr} {f : State → State} (h : ∀ s, exec i s = .next (f s)) (n : Nat) (s : State) :
    runAll (List.replicate n i) s = .next (times n f s) := by
  induction n generalizing s with
  | zero => rfl
  | succ n ih =>
    rw [List.replicate_succ, runAll_cons_next (h s), ih]
    rfl

/-! ## The bytes of the operations as codes of wire items -/

/-- A control register without reserved bits, sent whole, is a display-control item (R33, R67). -/
theorem registerCommand_displayControl : ∀ v : Byte, v &&& ~~~0x07 = 0 →
    registerCommand opDisplayControl v = Encoding.displayControl (v.getLsbD 2) (v.getLsbD 1) (v.getLsbD 0) := by decide

/-- An entry-mode register without reserved bits, sent whole, is an entry-mode item (R33, R66). -/
theorem registerCommand_entryModeSet : ∀ v : Byte, v &&& ~~~0x03 = 0 →
    registerCommand opEntryMode v = Encoding.entryModeSet (v.getLsbD 1) (v.getLsbD 0) := by decide

/-- Bit 7 of an address is absorbed by the opcode bit (R71). -/
theorem opDdram_or (a : Byte) : opDdram ||| a = Encoding.setDdramAddr (a.setWidth 7) := by
  revert a
  decide

/-- The glyph's CGRAM address is eight times the slot number modulo 8 (R70, R163). -/
theorem glyphCommand_eq (k : Byte) : glyphCommand k = Encoding.setCgramAddr (BitVec.ofNat 6 (k.toNat % 8 * 8)) := by
  revert k
  decide

/-- A character code is sent modulo 256 (R164). -/
theorem charByte_eq (c : Nat) : charByte c = BitVec.ofNat 8 (c % 256) :=
  BitVec.eq_of_toNat_eq (by simp [charByte])

/-! ## The address of a position -/

/-- The row clamp of `set_position` (R152) as a minimum with the last valid row. -/
theorem clampRow_eq (func row : Byte) :
    clampRow func row = min row.toNat (if func.getLsbD 3 then (if func.getLsbD 2 then 3 else 1) else 0) := by
  have lines : ∀ f : Byte, 1 ≤ numLines f ∧ numLines f ≤ 4 ∧
      numLines f - 1 = if f.getLsbD 3 then (if f.getLsbD 2 then 3 else 1) else 0 := by decide
  obtain ⟨hpos, hmax, hlast⟩ := lines func
  rw [← hlast]
  unfold clampRow
  dsimp only
  split <;> omega

/-- The low 7 bits of the position are those of the sum without wrap. -/
theorem position_setWidth (func : Byte) (o : RowOffsets) (col row : Byte) :
    (position func o col row).setWidth 7 = BitVec.ofNat 7 ((o.get (clampRow func row)).toNat + col.toNat) := by
  apply BitVec.eq_of_toNat_eq
  simp [position, BitVec.toNat_add]

/-! ## The operations -/

/-- An operation that writes `g` of the control register and sends it (R154 to R159) is a display-control item. -/
theorem exec_eq_displayControl (i : Instr) (g : Byte → Byte) {s : State} (h : s.phase = .rdy) (hr : s.reservedClear)
    (hi : exec i s = inRdy (fun t => pushCtrl (g t.ctrl) t) s) (hg : (registersAfter i s).ctrl = g s.ctrl) :
    exec i s = exec (.displayControl ((g s.ctrl).getLsbD 2) ((g s.ctrl).getLsbD 1) ((g s.ctrl).getLsbD 0))
      { s with ctrl := g s.ctrl } := by
  obtain ⟨-, hctrl, -⟩ := registersAfter_reservedClear i hr
  rw [hg] at hctrl
  rw [hi, inRdy, inPhase_eq_next _ h, pushCtrl, registerCommand_displayControl _ hctrl]
  rfl

/-- An operation that writes `g` of the entry-mode register and sends it (R160 to R162) is an entry-mode item. -/
theorem exec_eq_entryModeSet (i : Instr) (g : Byte → Byte) {s : State} (h : s.phase = .rdy) (hr : s.reservedClear)
    (hi : exec i s = inRdy (fun t => pushMode (g t.mode) t) s) (hg : (registersAfter i s).mode = g s.mode) :
    exec i s = exec (.entryModeSet ((g s.mode).getLsbD 1) ((g s.mode).getLsbD 0)) { s with mode := g s.mode } := by
  obtain ⟨-, -, hmode⟩ := registersAfter_reservedClear i hr
  rw [hg] at hmode
  rw [hi, inRdy, inPhase_eq_next _ h, pushMode, registerCommand_entryModeSet _ hmode]
  rfl

/-- `set_position` sends the position's low 7 bits as a DDRAM address (R71, R152). -/
theorem exec_setPosition_eq_setDdramAddr {s : State} (h : s.phase = .rdy) (col row : Byte) :
    exec (.setPosition col row) s =
      exec (.setDdramAddr (BitVec.ofNat 7 ((s.offsets.get (clampRow s.func row)).toNat + col.toNat))) s := by
  have hx : exec (.setPosition col row) s = .next (command (opDdram ||| position s.func s.offsets col row) s) :=
    inPhase_eq_next (fun t => command (opDdram ||| position t.func t.offsets col row) t) h
  rw [hx, opDdram_or, position_setWidth]
  rfl

/-- `print` is one data item per character code, taken modulo 256 (R164). -/
theorem exec_print_eq_dataWrite {s : State} (h : s.phase = .rdy) (t : List Nat) :
    exec (.print t) s = runAll (t.map fun c => .dataWrite (BitVec.ofNat 8 (c % 256))) s := by
  have hx : exec (.print t) s = .next (writeAll (t.map charByte) s) := inPhase_eq_next _ h
  rw [hx, ← runAll_dataWrite, List.map_map]
  simp only [Function.comp_def, charByte_eq]

/-- `set_character` is the CGRAM address item, then one data item per row of the glyph (R163). -/
theorem exec_setCharacter_eq_runAll {s : State} (h : s.phase = .rdy) (k : Byte) (g : List Byte) :
    exec (.setCharacter k g) s = runAll (.setCgramAddr (BitVec.ofNat 6 (k.toNat % 8 * 8)) :: g.map .dataWrite) s := by
  have hx : exec (.setCharacter k g) s = .next (writeAll g (command (glyphCommand k) s)) :=
    inPhase_eq_next (fun t => writeAll g (command (glyphCommand k) t)) h
  rw [hx, glyphCommand_eq, runAll_cons_next (exec_of_encode_cmd rfl s), runAll_dataWrite]

/-- `scroll` is `n` display shift items (R68, R153). -/
theorem exec_scroll_eq_cursorDisplayShift {s : State} (h : s.phase = .rdy) (dir : Dir) (n : Byte) :
    exec (.scroll dir n) s = runAll (List.replicate n.toNat (.cursorDisplayShift true (dir == .right))) s := by
  have hc : encode (.cursorDisplayShift true (dir == .right)) = some ⟨.cmd, shiftCommand dir⟩ := by cases dir <;> rfl
  have hx : exec (.scroll dir n) s = .next (times n.toNat (command (shiftCommand dir)) s) := inPhase_eq_next _ h
  rw [hx, runAll_replicate (exec_of_encode_cmd hc)]

/-- Settles O57: in phase `RDY` each operation is the transmission of a byte, and the byte is the code of the item. -/
theorem hostOperationsExpandIntoWireItems : Obligations.HostOperationsExpandIntoWireItems := by
  intro s h hr
  have runs (f : State → State) : inRdy f s = .next (f s) := inPhase_eq_next f h
  refine ⟨runs _, runs _, fun b => ⟨runs _, runs _⟩, fun b i hi => ?_, exec_print_eq_dataWrite h, fun col row => ?_,
    fun n => ⟨exec_scroll_eq_cursorDisplayShift h .left n, exec_scroll_eq_cursorDisplayShift h .right n⟩,
    ?_, ?_, ?_, ?_, ?_, ?_, ?_, ?_, ?_, ?_, exec_setCharacter_eq_runAll h⟩
  · rw [exec_of_encode_cmd (encode_of_decode_cmd hi)]
    exact ⟨runs _, runs _⟩
  · rw [exec_setPosition_eq_setDdramAddr h, clampRow_eq]
    rfl
  · simpa [setBits, maskDisplay] using exec_eq_displayControl .displayOn (setBits maskDisplay) h hr rfl rfl
  · simpa [clearBits, maskDisplay] using exec_eq_displayControl .displayOff (clearBits maskDisplay) h hr rfl rfl
  · simpa [setBits, maskCursor] using exec_eq_displayControl .cursorOn (setBits maskCursor) h hr rfl rfl
  · simpa [clearBits, maskCursor] using exec_eq_displayControl .cursorOff (clearBits maskCursor) h hr rfl rfl
  · simpa [setBits, maskBlink] using exec_eq_displayControl .blinkOn (setBits maskBlink) h hr rfl rfl
  · simpa [clearBits, maskBlink] using exec_eq_displayControl .blinkOff (clearBits maskBlink) h hr rfl rfl
  · simpa [setBits, maskAutoscroll] using exec_eq_entryModeSet .autoscrollOn (setBits maskAutoscroll) h hr rfl rfl
  · simpa [clearBits, maskAutoscroll] using exec_eq_entryModeSet .autoscrollOff (clearBits maskAutoscroll) h hr rfl rfl
  · simpa [clearBits, maskLayout, layoutBits] using
      exec_eq_entryModeSet (.setLayout .leftToRight) (clearBits maskLayout · ||| layoutBits .leftToRight) h hr rfl rfl
  · simpa [clearBits, maskLayout, layoutBits] using
      exec_eq_entryModeSet (.setLayout .rightToLeft) (clearBits maskLayout · ||| layoutBits .rightToLeft) h hr rfl rfl

end Sys2Proof.Machine

/-! Proofs for the family of 20_memory.md.  An instruction's effect has three parts: it writes its registers, attempts a `Tame` script,
and `build` then validates and changes phase.  Each part keeps `State.Inv`, and so does the step that runs them. -/

namespace Sys2Proof.Machine

/-! ## The register part -/

/-- Nothing unbinds and no level is written, so a slot unbound afterwards was unbound and undriven before. -/
theorem registersAfter_unboundUndriven (i : Instr) {s : State} (h : s.unboundUndriven) :
    (registersAfter i s).unboundUndriven := by
  intro p hp
  have hbefore : s.bound.get p = false := by
    cases hb : s.bound.get p with
    | false => rfl
    | true => exact absurd (registersAfter_bound_mono i s hb) (by simp [hp])
  rw [registersAfter_level]
  exact h p hbefore

theorem registersAfter_inv (i : Instr) {s : State} (h : s.Inv) : (registersAfter i s).Inv where
  reserved := registersAfter_reservedClear i h.reserved
  table := registersAfter_tableOk i h.table
  undriven := registersAfter_unboundUndriven i h.undriven
  idle := by simpa [State.linesIdle] using h.idle
  replay := by simpa [State.levelIsReplay] using h.replay

/-! ## The script -/

/-- Whole pulses end with EN low (R92), and RW is only ever driven low (R41, R97). -/
theorem Tame.keeps_linesIdle {l : List Event} (hl : Tame l) {s : State} (h : s.linesIdle) : (s.performed l).linesIdle := by
  obtain ⟨hen, hrw⟩ := h
  have hwrites : .drive .rw .high ∉ emitted s.bound l := fun hm => hl.writes (List.mem_of_mem_filter hm)
  exact ⟨levelAfter_en_of_whole (hl.whole s.bound) (.inl hen), levelAfter_rw_of_writes hwrites hrw⟩

/-- The levels and the trace advance by the same emitted events (R13). -/
theorem performed_levelIsReplay (l : List Event) {s : State} (h : s.levelIsReplay) : (s.performed l).levelIsReplay := by
  unfold State.levelIsReplay at h ⊢
  rw [State.performed_level, State.performed_trace, levelAfter_append, ← h]

theorem Tame.keeps_inv {l : List Event} (hl : Tame l) {s : State} (h : s.Inv) : (s.performed l).Inv where
  reserved := h.reserved
  table := h.table
  undriven p hp := (levelAfter_unbound l s.level hp).trans (h.undriven p hp)
  idle := hl.keeps_linesIdle h.idle
  replay := performed_levelIsReplay l h.replay

/-! ## Fields the invariant does not speak of -/

/-- The phase, the error and the requests are free. -/
theorem State.Inv.with_phase_err_pending {s : State} (h : s.Inv) (p : Phase) (c : ErrorCode) (l : List Instr) :
    { s with phase := p, err := c, pending := l }.Inv :=
  ⟨h.reserved, h.table, h.undriven, h.idle, h.replay⟩

/-- Validation and the phase change of `build` write only free fields (R138, R141). -/
theorem finish_inv (i : Instr) {s : State} (h : s.Inv) : (finish i s).Inv := by
  unfold finish
  split
  · rw [validate_eq]
    exact h.with_phase_err_pending .rdy _ s.pending
  · exact h

/-! ## The step -/

theorem effect_inv (i : Instr) {s : State} (h : s.Inv) : (effect i s).Inv :=
  finish_inv i ((Tame.scriptOf i _).keeps_inv (registersAfter_inv i h))

/-- Settles O49: a step idles, or has the effect of the oldest request, and each effect keeps the invariant. -/
theorem stepKeepsTheInvariant : Obligations.StepKeepsTheInvariant := by
  intro s t h hstep
  obtain ⟨-, rfl⟩ | ⟨i, rest, -, -, hexec⟩ := step_cases hstep
  · exact h
  · obtain ⟨-, rfl⟩ := exec_cases hexec
    exact effect_inv i (h.with_phase_err_pending s.phase s.err rest)

end Sys2Proof.Machine

/-! Proofs for the family of 30_encoding.md.  First the codes of the wire items (sections 2, 3), which `encode` and `decode` give in
both directions; then the frame of a nibble (R61), the step on a placed word, and the rows of the table of pseudo-operations (R79),
whose sequences are compared instruction by instruction with the runs of wire items proved above. -/

namespace Sys2Proof.Machine

/-! ## Codes -/

/-- The six address bits of R70 come back under their opcode. -/
@[simp] theorem decodeCommand_setCgramAddr (a : BitVec 6) :
    decodeCommand (Encoding.setCgramAddr a) = .ok (.setCgramAddr a) := by
  have key : ∀ a : BitVec 6, accepted (decodeCommand (Encoding.setCgramAddr a)) = some (.setCgramAddr a) := by decide
  exact accepted_eq_some (key a)

/-- The seven address bits of R71 come back under their opcode. -/
@[simp] theorem decodeCommand_setDdramAddr (a : BitVec 7) :
    decodeCommand (Encoding.setDdramAddr a) = .ok (.setDdramAddr a) := by
  have key : ∀ a : BitVec 7, accepted (decodeCommand (Encoding.setDdramAddr a)) = some (.setDdramAddr a) := by decide
  exact accepted_eq_some (key a)

/-- The instructions without a code are the host operations (R80). -/
theorem encode_eq_none_iff {i : Instr} : encode i = none ↔ i.isHost = true := by
  cases i <;> simp [encode, Instr.isHost, Instr.format]

/-- An instruction is what its code decodes to. -/
theorem decode_of_encode {i : Instr} {c : Code} (h : encode i = some c) : decode c = .ok i := by
  cases i <;> cases h
  case entryModeSet id s => exact decodeCommand_entryModeSet id s
  case displayControl d c b => exact decodeCommand_displayControl d c b
  case cursorDisplayShift sc rl => exact decodeCommand_cursorDisplayShift sc rl
  case functionSet dl n f => exact decodeCommand_functionSet dl n f
  case setCgramAddr a => exact decodeCommand_setCgramAddr a
  case setDdramAddr a => exact decodeCommand_setDdramAddr a
  case clearDisplay | returnHome | dataWrite | rawNibbleSync | rawNibbleCommit => rfl

/-- Settles O53: a wire item has a code, from which decoding gives it back; a host operation has none, and no code names it. -/
theorem decodeEncodeRoundTrip : Obligations.DecodeEncodeRoundTrip := by
  intro i
  refine ⟨fun hwire => ?_, fun hhost => ⟨encode_eq_none_iff.mpr hhost, fun c hc => ?_⟩⟩
  · have hcode : encode i ≠ none := fun hn => by simp [encode_eq_none_iff.mp hn] at hwire
    obtain ⟨c, hc⟩ := Option.ne_none_iff_exists'.mp hcode
    exact ⟨c, hc, decode_of_encode hc⟩
  · simp [decode_ok_isHost hc] at hhost

/-- Settles O55: each word is read by the decoder, bit by bit. -/
theorem writtenOutWordsDecode : Obligations.WrittenOutWordsDecode :=
  ⟨rfl, rfl, rfl, rfl, rfl, rfl, rfl, rfl, rfl, rfl, rfl, rfl, rfl, rfl, rfl, rfl⟩

/-! ## The frames -/

/-- A 4-bit frame shows bits 3 to 0 of its argument only (R61). -/
theorem frame4Script_lowNibble (v : Byte) : frame4Script (v &&& 0x0F) = frame4Script v := by
  simp [frame4Script, lineEvent]

/-- Settles O6: the frames perform their scripts, and the nibble's script depends on bits 3 to 0 alone. -/
theorem framesPresentTheirBitsInOrder : Obligations.FramesPresentTheirBitsInOrder := by
  refine ⟨frame8_eq_performed, frame4_eq_performed, fun v w s h => ?_⟩
  rw [frame4_eq_performed, frame4_eq_performed, ← frame4Script_lowNibble v, ← frame4Script_lowNibble w, h]

/-! ## The step on a placed word -/

/-- Only a glyph can be ill-formed, and no wire item has one (R78). -/
theorem wellFormed_of_wireItem {i : Instr} (h : i.isHost = false) : i.wellFormed = true := by
  cases i
  case setCharacter => cases h
  all_goals rfl

/-- A word that names an instruction is that instruction, placed first. -/
theorem withFetchWord_eq {nbits w : Nat} {i : Instr} (h : decodeTableWord nbits w = some i) (s : State) :
    s.withFetchWord nbits w = s.setPending (i :: s.pending) := by
  simp [State.withFetchWord, h]

/-- Settles O39: a table word names a wire item, which the step takes from the front, leaving the state as it was. -/
theorem fetchWordIsRunByTheNextStep : Obligations.FetchWordIsRunByTheNextStep := by
  intro s nbits w i h
  have hwire : i.isHost = false := (decodeTableWord_cases h).elim decode_ok_isHost decode_ok_isHost
  have hwf : i.wellFormed = true := wellFormed_of_wireItem hwire
  refine ⟨hwf, hwire, ?_⟩
  rw [withFetchWord_eq h, step_of_pending_cons (State.setPending_pending _ s), if_pos hwf]
  rfl

/-! ## Runs with the same outcomes -/

/-- Only `build` changes the phase (R24). -/
theorem exec_phase_of_ne_build {i : Instr} (hi : i ≠ .build) {s t : State} (h : exec i s = .next t) : t.phase = s.phase := by
  obtain ⟨-, rfl⟩ := exec_cases h
  simp [effect_of_ne_build hi]

/-- Two runs agree when their first instructions do, and the rests agree on the state these leave. -/
theorem runAll_cons_congr {i j : Instr} {l m : List Instr} {s : State} (hij : exec i s = exec j s)
    (hlm : ∀ t, exec i s = .next t → runAll l t = runAll m t) : runAll (i :: l) s = runAll (j :: m) s := by
  unfold runAll
  rw [← hij]
  cases hx : exec i s with
  | next t => exact hlm t hx
  | fault f => rfl
  | refused r => rfl

/-- Two runs of one shape agree in phase `RDY` when their instructions do. -/
theorem runAll_map_congr {α : Type} (l : List α) {f g : α → Instr} (hb : ∀ a, f a ≠ .build)
    (hfg : ∀ a t, t.phase = .rdy → exec (f a) t = exec (g a) t) {s : State} (h : s.phase = .rdy) :
    runAll (l.map f) s = runAll (l.map g) s := by
  induction l generalizing s with
  | nil => rfl
  | cons a l ih =>
    exact runAll_cons_congr (hfg a s h) fun t ht => ih ((exec_phase_of_ne_build (hb a) ht).trans h)

/-- In phase `RDY`, a command item is `command` of its byte (R3, R99). -/
theorem exec_eq_command_of_encode {i : Instr} {b : Byte} (he : encode i = some ⟨.cmd, b⟩) {s : State} (h : s.phase = .rdy) :
    exec i s = exec (.command b) s :=
  (exec_of_encode_cmd he s).trans (inPhase_eq_next (command b) h).symm

/-- In phase `RDY`, a run of data items is the run of `write` over their bytes (R3, R101). -/
theorem runAll_dataWrite_eq_write {α : Type} (l : List α) (f : α → Byte) {s : State} (h : s.phase = .rdy) :
    runAll (l.map fun a => .dataWrite (f a)) s = runAll (l.map fun a => .write (f a)) s :=
  runAll_map_congr l (f := fun a => .dataWrite (f a)) (g := fun a => .write (f a)) (fun _ => Instr.noConfusion)
    (fun a _ ht => (inPhase_eq_next (write (f a)) ht).symm) h

/-! ## Pseudo-operations -/

/-- `with_half_bus` and `with_full_bus` (R112, R113): the binds in order, on the state with the width flag written. -/
theorem inCfg_bindAll_eq_runAll (p : Slot) (l : List Slot) (v : Byte) (s : State) :
    inCfg (fun t => (bindAll (p :: l) t).setFunc v) s = runAll ((p :: l).map .bind) (s.setFunc v) := by
  by_cases h : s.phase = .cfg
  · have hphase : (s.setFunc v).phase = .cfg := h
    rw [runAll_bind _ hphase, bindAll_setFunc]
    exact inPhase_eq_next _ h
  · have hbind : exec (.bind p) (s.setFunc v) = .refused .outOfPhase := exec_refused rfl h
    rw [List.map_cons, runAll, hbind]
    exact if_neg h

/-- `scroll` is `n` shift commands (R153). -/
theorem exec_scroll_eq_command {s : State} (h : s.phase = .rdy) (dir : Dir) (n : Byte) :
    exec (.scroll dir n) s = runAll (List.replicate n.toNat (.command (shiftCommand dir))) s := by
  have hcode : encode (.cursorDisplayShift true (dir == .right)) = some ⟨.cmd, shiftCommand dir⟩ := by cases dir <;> rfl
  rw [exec_scroll_eq_cursorDisplayShift h]
  simpa using runAll_map_congr (List.replicate n.toNat ()) (fun _ => Instr.noConfusion)
    (fun _ _ ht => exec_eq_command_of_encode hcode ht) h

/-- `set_character` is the address command, then the rows written (R163). -/
theorem exec_setCharacter_eq_command_write {s : State} (h : s.phase = .rdy) (k : Byte) (g : List Byte) :
    exec (.setCharacter k g) s = runAll (.command (glyphCommand k) :: g.map .write) s := by
  rw [exec_setCharacter_eq_runAll h]
  refine runAll_cons_congr (exec_eq_command_of_encode (by rw [glyphCommand_eq]; rfl) h) fun t ht => ?_
  exact runAll_dataWrite_eq_write g id ((exec_phase_of_ne_build Instr.noConfusion ht).trans h)

/-- A control toggle (R154 to R159) writes the register and commands the whole of it (R33, R167). -/
theorem inRdy_pushCtrl_eq_command (g : Byte → Byte) (s : State) : inRdy (fun t => pushCtrl (g t.ctrl) t) s =
    exec (.command (0x08 ||| g s.ctrl)) { s with ctrl := g s.ctrl } := rfl

/-- An entry-mode toggle (R160 to R162) writes the register and commands the whole of it (R33, R167). -/
theorem inRdy_pushMode_eq_command (g : Byte → Byte) (s : State) : inRdy (fun t => pushMode (g t.mode) t) s =
    exec (.command (0x04 ||| g s.mode)) { s with mode := g s.mode } := rfl

/-- Settles O60, row by row.  `command`, `write`, `clear`, `home`, `set_position` and the single binds have the same meaning as
their row; the toggles are their register push; a row of a sequence is its run of binds, commands or writes. -/
theorem pseudoOperationsAreTheirExpansions : Obligations.PseudoOperationsAreTheirExpansions := by
  intro s
  refine ⟨fun b => ⟨rfl, rfl⟩, rfl, rfl, fun col row => rfl,
    inRdy_pushCtrl_eq_command (setBits maskDisplay) s, inRdy_pushCtrl_eq_command (clearBits maskDisplay) s,
    inRdy_pushCtrl_eq_command (setBits maskCursor) s, inRdy_pushCtrl_eq_command (clearBits maskCursor) s,
    inRdy_pushCtrl_eq_command (setBits maskBlink) s, inRdy_pushCtrl_eq_command (clearBits maskBlink) s,
    inRdy_pushMode_eq_command (setBits maskAutoscroll) s, inRdy_pushMode_eq_command (clearBits maskAutoscroll) s,
    inRdy_pushMode_eq_command (clearBits maskLayout · ||| layoutBits .leftToRight) s, ?_, rfl, rfl,
    inCfg_bindAll_eq_runAll .d4 _ _ s, inCfg_bindAll_eq_runAll .d0 _ _ s,
    fun h => ⟨fun t => ?_, fun n => ⟨exec_scroll_eq_command h .left n, exec_scroll_eq_command h .right n⟩,
      exec_setCharacter_eq_command_write h⟩⟩
  · have hrow : exec (.setLayout .rightToLeft) s = _ :=
      inRdy_pushMode_eq_command (clearBits maskLayout · ||| layoutBits .rightToLeft) s
    simpa [clearBits, maskLayout, layoutBits] using hrow
  · exact (exec_print_eq_dataWrite h t).trans (runAll_dataWrite_eq_write t _ h)

end Sys2Proof.Machine

/-! Proofs for the family of 40_transmission.md: the primitives `wait` (R91) and `pulse` (R92). -/

namespace Sys2Proof.Machine

/-! ## The guarded pin write (R90) -/

/-- On a bound slot, a pin write is seen outside and in the level shadow. -/
theorem drive_of_bound {p : Slot} {s : State} (h : s.bound.get p = true) (lv : Level) :
    drive p lv s = (s.emit (.drive p lv)).setLevel p lv :=
  if_pos h

/-- On an unbound slot, a pin write only records the missing pin. -/
theorem drive_of_unbound {p : Slot} {s : State} (h : s.bound.get p = false) (lv : Level) :
    drive p lv s = s.setErr (.missingPin p) :=
  if_neg (by simp [h])

/-- Two writes to one bound slot: both are seen outside, and the second decides its level. -/
theorem drive_drive_of_bound {p : Slot} {s : State} (h : s.bound.get p = true) (l m : Level) :
    drive p m (drive p l s) = { s with trace := s.trace ++ [.drive p l, .drive p m], level := s.level.set p (some m) } := by
  have hset : (s.level.set p (some l)).set p (some m) = s.level.set p (some m) :=
    PerSlot.eq_of_get fun q => by simp only [PerSlot.get_set]; split <;> rfl
  have hkept : ((s.emit (.drive p l)).setLevel p l).bound.get p = true := h
  rw [drive_of_bound h, drive_of_bound hkept]
  simp [State.emit, State.setLevel, hset]

/-- Two writes to one unbound slot record the missing pin, once for both. -/
theorem drive_drive_of_unbound {p : Slot} {s : State} (h : s.bound.get p = false) (l m : Level) :
    drive p m (drive p l s) = { s with err := .missingPin p } := by
  have hkept : (s.setErr (.missingPin p)).bound.get p = false := h
  rw [drive_of_unbound h, drive_of_unbound hkept]
  rfl

/-! ## The primitives -/

/-- Settles O4: `wait` is one emitted event, and emitting writes the trace alone. -/
theorem waitEmitsOneWaitAndNothingElse : Obligations.WaitEmitsOneWaitAndNothingElse :=
  fun _ _ => rfl

/-- Settles O5: a pulse is two writes to EN, which is bound at both or at neither. -/
theorem pulseIsHighThenLowOnEnable : Obligations.PulseIsHighThenLowOnEnable :=
  fun _ => ⟨fun hbound => drive_drive_of_bound (p := .en) hbound .high .low,
    fun hunbound => drive_drive_of_unbound (p := .en) hunbound .high .low⟩

end Sys2Proof.Machine

/-! Proofs for the family of 41_configuration.md: configuration emits nothing (R124). -/

namespace Sys2Proof.Machine

/-- A configuration operation other than `build` attempts no event, so its whole effect is what it writes to the registers. -/
theorem effect_of_cfg {i : Instr} (h : phaseNeeded i = some .cfg) (hb : i ≠ .build) (s : State) :
    effect i s = registersAfter i s :=
  effect_of_silent hb (scriptOf_cfg h hb _)

/-- Settles O15: the register part of an instruction writes neither the trace, nor `err`, nor a level. -/
theorem configurationEmitsNothing : Obligations.ConfigurationEmitsNothing := by
  intro i s t hneed hb hrun
  obtain ⟨-, rfl⟩ := exec_cases hrun
  rw [effect_of_cfg hneed hb]
  exact ⟨registersAfter_trace i s, registersAfter_err i s, registersAfter_level i s⟩

end Sys2Proof.Machine

/-! Proofs for the family of 42_initialization.md: the 4-bit handshake (R134), and what bus validation leaves in `err` (R138,
R192). -/

namespace Sys2Proof.Machine

/-! ## The handshake -/

/-- Step 3 of `build` with the width flag clear (R134). -/
theorem handshakeScript_of_four {s : State} (h : s.eightBit = false) : s.handshakeScript =
    frame4Script 0x03 ++ [.wait .initLong] ++ frame4Script 0x03 ++ [.wait .initLong] ++ frame4Script 0x03
      ++ [.wait .initShort] ++ frame4Script 0x02 :=
  if_neg (by simp [h])

theorem le_micros_initLong : 4500 ≤ Config.Duration.micros .initLong := by
  simp [Config.Duration.micros, Config.tInitLong]

theorem le_micros_initShort : 150 ≤ Config.Duration.micros .initShort := by
  simp [Config.Duration.micros, Config.tInitShort]

/-- Settles O17: the handshake performs its script, which is the four frames and three waits of R134. -/
theorem fourBitHandshakeSendsThreeSyncsAndACommit : Obligations.FourBitHandshakeSendsThreeSyncsAndACommit :=
  ⟨fun s h => by rw [handshake_eq_performed, handshakeScript_of_four h], le_micros_initLong, le_micros_initShort⟩

/-! ## What a script can leave in `err` -/

/-- No script records `InvalidBus`: it leaves a missing pin, or what was there (R196). -/
theorem errAfter_eq_invalidBus {b : PerSlot Bool} {c : ErrorCode} {l : List Event} (h : errAfter b c l = .invalidBus) :
    c = .invalidBus := by
  unfold errAfter at h
  split at h
  · cases h
  · exact h

/-- An instruction other than `build` writes `err` through its script alone. -/
theorem effect_err_of_ne_build {i : Instr} (hi : i ≠ .build) (s : State) : (effect i s).err =
    errAfter (registersAfter i s).bound s.err (scriptOf i (registersAfter i s)) := by
  rw [effect_of_ne_build hi, State.performed_err, registersAfter_err]

/-! ## Validation -/

/-- The bus counts as bound when one required line is (R138). -/
theorem busBound_eq_true_iff {s : State} : s.busBound = true ↔ ∃ p ∈ s.activeData, s.bound.get p = true := by
  rw [busBound_eq_any, List.any_eq_true]

/-- The bus is absent when every required line is unbound (R138). -/
theorem busBound_eq_false_iff {s : State} : s.busBound = false ↔ ∀ p ∈ s.activeData, s.bound.get p = false := by
  simp [busBound_eq_any]

theorem validate_of_busBound {s : State} (h : s.busBound = true) : validate s = s := by
  rw [validate_eq, if_pos h]

theorem validate_of_not_busBound {s : State} (h : s.busBound = false) : validate s = { s with err := .invalidBus } := by
  rw [validate_eq, if_neg (by simp [h])]

/-! ## `build` -/

/-- In phase `CFG`, `build` completes; validation then keeps what its script left in `err`, or overwrites it (R138). -/
theorem exec_build_err {s : State} (h : s.phase = .cfg) : ∃ t, exec .build s = .next t ∧
    t.err = if s.busBound then errAfter s.bound s.err s.buildScript else .invalidBus :=
  ⟨_, exec_next fun _ hneed => by cases hneed; exact h, by rw [effect_build]⟩

theorem exists_lineEvent_mem_frame4Script {p : Slot} (h : p ∈ [Slot.d4, .d5, .d6, .d7]) (v : Byte) :
    ∃ i, lineEvent p v i ∈ frame4Script v := by
  simp only [List.mem_cons, List.not_mem_nil, or_false] at h
  rcases h with rfl | rfl | rfl | rfl
  · exact ⟨0, by simp [frame4Script]⟩
  · exact ⟨1, by simp [frame4Script]⟩
  · exact ⟨2, by simp [frame4Script]⟩
  · exact ⟨3, by simp [frame4Script]⟩

theorem exists_lineEvent_mem_frame8Script {p : Slot} (h : p ∈ [Slot.d0, .d1, .d2, .d3, .d4, .d5, .d6, .d7]) (v : Byte) :
    ∃ i, lineEvent p v i ∈ frame8Script v := by
  simp only [List.mem_cons, List.not_mem_nil, or_false] at h
  rcases h with rfl | rfl | rfl | rfl | rfl | rfl | rfl | rfl
  · exact ⟨0, by simp [frame8Script]⟩
  · exact ⟨1, by simp [frame8Script]⟩
  · exact ⟨2, by simp [frame8Script]⟩
  · exact ⟨3, by simp [frame8Script]⟩
  · exact ⟨4, by simp [frame8Script]⟩
  · exact ⟨5, by simp [frame8Script]⟩
  · exact ⟨6, by simp [frame8Script]⟩
  · exact ⟨7, by simp [frame8Script]⟩

/-- A transmission attempts every data line the stored width requires (R60, R61). -/
theorem exists_drive_mem_commandScript {s : State} {p : Slot} (h : p ∈ s.activeData) (b : Byte) :
    ∃ lv, .drive p lv ∈ s.commandScript b := by
  have hbyte : ∃ v i, lineEvent p v i ∈ byteScript s.eightBit b := by
    unfold State.activeData at h
    rw [eightBit_eq] at h
    cases h8 : s.eightBit <;> simp only [h8] at h
    · obtain ⟨i, hi⟩ := exists_lineEvent_mem_frame4Script h (b >>> 4)
      exact ⟨_, i, List.mem_append_left _ hi⟩
    · obtain ⟨i, hi⟩ := exists_lineEvent_mem_frame8Script h b
      exact ⟨_, i, hi⟩
  obtain ⟨v, i, hline⟩ := hbyte
  exact ⟨_, List.mem_cons_of_mem _ (List.mem_append_left _ (List.mem_append_right _ hline))⟩

/-- `build` ends with a command (R137), so it attempts every data line the stored width requires. -/
theorem exists_drive_mem_buildScript {s : State} {p : Slot} (h : p ∈ s.activeData) : ∃ lv, .drive p lv ∈ s.buildScript := by
  obtain ⟨lv, hlv⟩ := exists_drive_mem_commandScript h 0x02
  exact ⟨lv, List.mem_append_right _ hlv⟩

/-- Settles O18: a script leaves a missing pin or the old code, so `InvalidBus` comes from validation alone; and `build`
attempts every required line, so an unbound one is recorded, and a bound one keeps validation from overwriting it. -/
theorem validationFailsOnlyOnTotalAbsence : Obligations.ValidationFailsOnlyOnTotalAbsence := by
  refine ⟨fun s => ⟨fun hsome => ?_, fun hnone => ?_⟩, fun i s t hi hrun herr => ?_, fun s hphase => ?_⟩
  · exact validate_of_busBound (busBound_eq_true_iff.2 hsome)
  · exact validate_of_not_busBound (busBound_eq_false_iff.2 hnone)
  · obtain ⟨-, rfl⟩ := exec_cases hrun
    rw [effect_err_of_ne_build hi] at herr
    exact errAfter_eq_invalidBus herr
  · obtain ⟨t, hrun, herr⟩ := exec_build_err hphase
    have hkept (hsome : ∃ p ∈ s.activeData, s.bound.get p = true) : t.err = errAfter s.bound s.err s.buildScript := by
      rw [herr, if_pos (busBound_eq_true_iff.2 hsome)]
    refine ⟨t, hrun, fun hnone => ?_, fun hsome hbus => ?_, fun hsome ⟨p, hp, hunbound⟩ => ?_⟩
    · rw [herr, busBound_eq_false_iff.2 hnone]
      rfl
    · exact errAfter_eq_invalidBus ((hkept hsome).symm.trans hbus)
    · obtain ⟨lv, hdrive⟩ := exists_drive_mem_buildScript hp
      rw [hkept hsome]
      exact errAfter_of_unbound s.err hdrive hunbound

end Sys2Proof.Machine

/-! Proofs for the family of 60_exceptions.md.  First what no operation reads (R198): each part of an instruction's effect keeps
two states the same but for what is only observed.  Then a run compared with the run that has every slot bound (R194), what no step
clears (R195), and the codes (R190). -/

namespace Sys2Proof.Machine

/-! ## States that differ in what is only observed (R13, R27, R198) -/

theorem State.sameButObserved.phase {s t : State} (h : s.sameButObserved t) : t.phase = s.phase := by
  rw [h]

theorem State.sameButObserved.bound {s t : State} (h : s.sameButObserved t) : t.bound = s.bound := by
  rw [h]

/-- The register part writes functions of registers and bindings. -/
theorem registersAfter_sameButObserved (i : Instr) {s t : State} (h : s.sameButObserved t) :
    (registersAfter i s).sameButObserved (registersAfter i t) := by
  unfold State.sameButObserved
  rw [h]
  cases i <;> rfl

/-- What is attempted depends on registers and bindings alone. -/
theorem scriptOf_of_sameButObserved (i : Instr) {s t : State} (h : s.sameButObserved t) : scriptOf i t = scriptOf i s := by
  rw [h]
  cases i <;> rfl

/-- A script writes observed fields alone. -/
theorem performed_sameButObserved (l : List Event) {s t : State} (h : s.sameButObserved t) :
    (s.performed l).sameButObserved (t.performed l) := by
  unfold State.sameButObserved
  rw [h]
  rfl

/-- Validation reads the bindings and writes `err`; the phase change reads nothing. -/
theorem finish_sameButObserved (i : Instr) {s t : State} (h : s.sameButObserved t) :
    (finish i s).sameButObserved (finish i t) := by
  unfold finish
  split
  · rw [validate_eq, validate_eq, State.sameButObserved, h]
    rfl
  · exact h

theorem effect_sameButObserved (i : Instr) {s t : State} (h : s.sameButObserved t) :
    (effect i s).sameButObserved (effect i t) := by
  have hregs := registersAfter_sameButObserved i h
  unfold effect
  rw [scriptOf_of_sameButObserved i hregs]
  exact finish_sameButObserved i (performed_sameButObserved _ hregs)

/-- Both runs emit the same events. -/
theorem effect_trace_of_sameButObserved (i : Instr) {s t : State} (h : s.sameButObserved t) :
    ∃ l, (effect i s).trace = s.trace ++ l ∧ (effect i t).trace = t.trace ++ l := by
  have hregs := registersAfter_sameButObserved i h
  refine ⟨_, effect_trace i s, ?_⟩
  rw [effect_trace, hregs.bound, scriptOf_of_sameButObserved i hregs]

/-- An accessor but `error()` answers from a register, and nothing else answers. -/
theorem registersAfter_answers_of_sameButObserved {i : Instr} (hi : i ≠ .error) {s t : State} (h : s.sameButObserved t) :
    ∃ a, (registersAfter i s).answers = s.answers ++ a ∧ (registersAfter i t).answers = t.answers ++ a := by
  rw [h]
  cases i
  case error => exact absurd rfl hi
  case getDisplay | getCursor | getBlink | getAutoscroll | getLayout | lines | size | busWidth => exact ⟨_, rfl, rfl⟩
  all_goals exact ⟨[], by simp [registersAfter, bindAll]⟩

theorem effect_answers (i : Instr) (s : State) : (effect i s).answers = (registersAfter i s).answers := by
  obtain ⟨-, -, -, -, -, -, -, -, -, hanswers⟩ := effect_registers i s
  exact hanswers

/-- The only refusal of an instruction is for its phase (R204). -/
theorem exec_refused_cases {i : Instr} {s : State} {r : Refusal} (h : exec i s = .refused r) :
    r = .outOfPhase ∧ ∃ p, phaseNeeded i = some p ∧ s.phase ≠ p := by
  rw [exec_eq] at h
  unfold outcomeIn at h
  split at h
  · cases h
  · rename_i p hneed
    split at h
    · cases h
    · cases h
      exact ⟨rfl, p, hneed, ‹_›⟩

/-- Settles O46: completion and refusal depend on the phase alone, and each part of the effect reads only what the two states
share. -/
theorem noOperationReadsErrLevelOrOutputs : Obligations.NoOperationReadsErrLevelOrOutputs := by
  intro i s t h
  refine ⟨fun s' hrun => ?_, fun r href => ?_⟩
  · obtain ⟨hphase, rfl⟩ := exec_cases hrun
    obtain ⟨l, hs, ht⟩ := effect_trace_of_sameButObserved i h
    have hnext : exec i t = .next (effect i t) := exec_next fun p hneed => h.phase.trans (hphase p hneed)
    refine ⟨effect i t, l, hnext, effect_sameButObserved i h, hs, ht, fun hi => ?_⟩
    rw [effect_answers, effect_answers]
    exact registersAfter_answers_of_sameButObserved hi h
  · obtain ⟨rfl, p, hneed, hphase⟩ := exec_refused_cases href
    exact exec_refused hneed (h.phase ▸ hphase)

/-! ## With every slot bound (R194)

What an instruction attempts depends on the bindings only in whether RW is forced low (R97), and that write is not emitted where
RW is unbound. -/

/-- The state with every slot bound. -/
def State.allBound (s : State) : State := { s with bound := PerSlot.fill true }

@[simp] theorem State.allBound_func (s : State) : s.allBound.func = s.func := rfl
@[simp] theorem State.allBound_ctrl (s : State) : s.allBound.ctrl = s.ctrl := rfl
@[simp] theorem State.allBound_mode (s : State) : s.allBound.mode = s.mode := rfl
@[simp] theorem State.allBound_reliable (s : State) : s.allBound.reliable = s.reliable := rfl
@[simp] theorem State.allBound_repeats (s : State) : s.allBound.repeats = s.repeats := rfl
@[simp] theorem State.allBound_eightBit (s : State) : s.allBound.eightBit = s.eightBit := rfl

theorem emitted_fill_true (l : List Event) : emitted (PerSlot.fill true) l = l := by
  refine List.filter_eq_self.2 fun e _ => ?_
  cases e <;> simp [reaches]

theorem emitted_flatten_map {α : Type} (b : PerSlot Bool) {f g : α → List Event}
    (h : ∀ a, emitted b (f a) = emitted b (g a)) (l : List α) :
    emitted b (l.map f).flatten = emitted b (l.map g).flatten := by
  induction l with
  | nil => rfl
  | cons a l ih => simp only [List.map_cons, List.flatten_cons, emitted_append, h, ih]

theorem emitted_flatten_replicate (b : PerSlot Bool) {l m : List Event} (h : emitted b l = emitted b m) (n : Nat) :
    emitted b (List.replicate n l).flatten = emitted b (List.replicate n m).flatten := by
  simpa using emitted_flatten_map b (fun _ => h) (List.replicate n ())

theorem emitted_rwScript_allBound (s : State) :
    emitted s.bound (rwScript s.allBound.bound.rw) = emitted s.bound (rwScript s.bound.rw) := by
  have hall : rwScript s.allBound.bound.rw = [.drive .rw .low] := rfl
  rw [hall]
  cases h : s.bound.rw <;> simp [rwScript, emitted_cons_drive, PerSlot.get, h]

theorem emitted_commandScript_allBound (s : State) (b : Byte) :
    emitted s.bound (s.allBound.commandScript b) = emitted s.bound (s.commandScript b) := by
  simp only [State.commandScript, commandScript, State.allBound_eightBit, List.cons_append, emitted_cons_drive,
    emitted_append, emitted_rwScript_allBound]

theorem emitted_dataScript_allBound (s : State) (b : Byte) :
    emitted s.bound (s.allBound.dataScript b) = emitted s.bound (s.dataScript b) := by
  simp only [State.dataScript, dataScript, State.allBound_eightBit, List.cons_append, emitted_cons_drive,
    emitted_cons_wait, emitted_append, emitted_rwScript_allBound]

theorem emitted_handshakeScript_allBound (s : State) :
    emitted s.bound s.allBound.handshakeScript = emitted s.bound s.handshakeScript := by
  unfold State.handshakeScript
  rw [State.allBound_eightBit, State.allBound_func]
  split
  · simp only [emitted_append, emitted_commandScript_allBound]
  · rfl

theorem emitted_preScript_allBound (s : State) : emitted s.bound s.allBound.preScript = emitted s.bound s.preScript := by
  unfold State.preScript
  rw [State.allBound_reliable, State.allBound_repeats, State.allBound_ctrl]
  cases s.reliable with
  | none => rfl
  | some d =>
    refine emitted_flatten_replicate s.bound ?_ s.repeats
    simp only [emitted_append, emitted_commandScript_allBound]

theorem emitted_buildScript_allBound (s : State) : emitted s.bound s.allBound.buildScript = emitted s.bound s.buildScript := by
  simp only [State.buildScript, State.allBound_func, State.allBound_ctrl, State.allBound_mode, emitted_append,
    emitted_cons_drive, emitted_rwScript_allBound, emitted_commandScript_allBound, emitted_handshakeScript_allBound,
    emitted_preScript_allBound]

/-- Of what an instruction attempts with every slot bound, the bound slots of `s` let through what it emits on `s`. -/
theorem emitted_scriptOf_allBound (i : Instr) (s : State) :
    emitted s.bound (scriptOf i s.allBound) = emitted s.bound (scriptOf i s) := by
  cases i
  case build => exact emitted_buildScript_allBound s
  case send b rs =>
    cases rs
    · exact emitted_commandScript_allBound s b
    · exact emitted_dataScript_allBound s b
  case dataWrite b => exact emitted_dataScript_allBound s b
  case write b => exact emitted_dataScript_allBound s b
  case print t => exact emitted_flatten_map _ (emitted_dataScript_allBound s) _
  case scroll dir n => exact emitted_flatten_replicate _ (emitted_commandScript_allBound s _) _
  case setCharacter k g =>
    have hrows := emitted_flatten_map s.bound (emitted_dataScript_allBound s) g
    simp only [scriptOf, emitted_append, emitted_commandScript_allBound, hrows]
  case clearDisplay | returnHome | entryModeSet | displayControl | cursorDisplayShift | functionSet | setCgramAddr
    | setDdramAddr | command | clear | home | setPosition | displayOn | displayOff | cursorOn | cursorOff | blinkOn | blinkOff
    | autoscrollOn | autoscrollOff | setLayout => exact emitted_commandScript_allBound s _
  all_goals rfl

/-- A bind binds a slot that is bound already, and no other register is written from the bindings. -/
theorem registersAfter_allBound (i : Instr) (s : State) :
    registersAfter i s.allBound = (registersAfter i s).allBound := by
  have hset (p : Slot) : (PerSlot.fill true).set p true = PerSlot.fill true := by cases p <;> rfl
  cases i
  case bind p => exact congrArg (fun b => { s with bound := b }) (hset p)
  all_goals rfl

/-- The bindings that the register part leaves let through no other events of the script than those it found: an
instruction that binds attempts nothing. -/
theorem emitted_registersAfter_bound (i : Instr) (s t : State) :
    emitted (registersAfter i s).bound (scriptOf i t) = emitted s.bound (scriptOf i t) := by
  by_cases hcfg : phaseNeeded i = some .cfg
  · by_cases hb : i = .build
    · subst hb
      rfl
    · rw [scriptOf_cfg hcfg hb]
      rfl
  · obtain ⟨hbound, -⟩ := registersAfter_frozen hcfg s
    rw [hbound]

/-- What an instruction emits is what it emits with every slot bound, less the writes of the unbound slots. -/
theorem newEvents_effect_allBound (i : Instr) (s : State) :
    newEvents s (effect i s) = emitted s.bound (newEvents s (effect i s.allBound)) := by
  have hall : newEvents s (effect i s.allBound) = scriptOf i (registersAfter i s).allBound := by
    rw [newEvents_of_trace (s := s) (effect_trace i s.allBound), registersAfter_allBound]
    exact emitted_fill_true _
  calc newEvents s (effect i s)
    _ = emitted (registersAfter i s).bound (scriptOf i (registersAfter i s)) := newEvents_of_trace (effect_trace i s)
    _ = emitted (registersAfter i s).bound (scriptOf i (registersAfter i s).allBound) :=
      (emitted_scriptOf_allBound i _).symm
    _ = emitted s.bound (scriptOf i (registersAfter i s).allBound) := emitted_registersAfter_bound i s _
    _ = emitted s.bound (newEvents s (effect i s.allBound)) := by rw [hall]

/-- Only `build` changes the phase (R24), whatever is bound. -/
theorem effect_phase (i : Instr) (s : State) : (effect i s).phase = if i = .build then .rdy else s.phase := by
  split
  · subst i
    rw [effect_build]
  · rw [effect_of_ne_build ‹_›]
    simp

/-- Settles O42: the bindings decide only which of the attempted writes are emitted, and no register is written from them. -/
theorem recordingWritesOnlyErrAndGoesOn : Obligations.RecordingWritesOnlyErrAndGoesOn := by
  refine ⟨fun c s => rfl, fun i s t u ht hu => ?_⟩
  obtain ⟨-, rfl⟩ := exec_cases ht
  obtain ⟨-, rfl⟩ := exec_cases hu
  obtain ⟨-, hfunc, hctrl, hmode, hcols, hoffsets, hreliable, -⟩ := effect_registers i s
  obtain ⟨-, hfunc', hctrl', hmode', hcols', hoffsets', hreliable', -⟩ := effect_registers i s.allBound
  rw [registersAfter_allBound] at hfunc' hctrl' hmode' hcols' hoffsets' hreliable'
  exact ⟨newEvents_effect_allBound i s, (effect_phase i s).trans (effect_phase i s.allBound).symm,
    hfunc.trans hfunc'.symm, hctrl.trans hctrl'.symm, hmode.trans hmode'.symm, hcols.trans hcols'.symm,
    hoffsets.trans hoffsets'.symm, hreliable.trans hreliable'.symm⟩

/-! ## The error register (R195) -/

theorem effect_err_ne_noError (i : Instr) {s : State} (h : s.err ≠ .noError) : (effect i s).err ≠ .noError := by
  by_cases hi : i = .build
  · subst hi
    rw [effect_build]
    dsimp only
    split
    · exact errAfter_ne_noError _ h
    · exact ErrorCode.noConfusion
  · rw [effect_err_of_ne_build hi]
    exact errAfter_ne_noError _ h

/-- Settles O43: a script and validation only ever replace a cause by a cause. -/
theorem errorIsNeverCleared : Obligations.ErrorIsNeverCleared := by
  refine ⟨fun s t hstep herr => ?_, fun s => ⟨_, rfl, rfl⟩, fun c s => rfl⟩
  obtain ⟨-, rfl⟩ | ⟨i, rest, -, -, hexec⟩ := step_cases hstep
  · exact herr
  · obtain ⟨-, rfl⟩ := exec_cases hexec
    exact effect_err_ne_noError i herr

/-! ## The codes of the errors (R190) -/

/-- The slot index is the position in the listing of R11. -/
theorem getElem?_slotIndex (p : Slot) :
    [Slot.rs, .en, .rw, .d0, .d1, .d2, .d3, .d4, .d5, .d6, .d7, .bl][slotIndex p]? = some p := by
  cases p <;> rfl

theorem slotIndex_injective : Function.Injective slotIndex := fun p q h =>
  Option.some.inj <| (getElem?_slotIndex p).symm.trans (h ▸ getElem?_slotIndex q)

theorem slotIndex_lt (p : Slot) : slotIndex p < 12 :=
  (List.getElem?_eq_some_iff.1 (getElem?_slotIndex p)).1

/-- The code of a missing pin does not wrap. -/
theorem toNat_code_missingPin (p : Slot) : (ErrorCode.missingPin p).code.toNat = slotIndex p := by
  have hlt := slotIndex_lt p
  rw [ErrorCode.code, BitVec.toNat_ofNat]
  omega

/-- A missing pin's code is below 12, so it is none of the other four words. -/
theorem code_missingPin_ne (p : Slot) {w : Nibble} (hw : 12 ≤ w.toNat) : (ErrorCode.missingPin p).code ≠ w := by
  rintro rfl
  have hlt := slotIndex_lt p
  rw [toNat_code_missingPin] at hw
  omega

theorem code_injective : Function.Injective ErrorCode.code := by
  intro c d h
  cases c <;> cases d
  case missingPin.missingPin p q =>
    have hindex := congrArg BitVec.toNat h
    rw [toNat_code_missingPin, toNat_code_missingPin] at hindex
    rw [slotIndex_injective hindex]
  case missingPin.noError p | missingPin.invalidBus p => exact absurd h (code_missingPin_ne p (by decide))
  case noError.missingPin p | invalidBus.missingPin p => exact absurd h.symm (code_missingPin_ne p (by decide))
  case noError.invalidBus | invalidBus.noError => exact absurd h (by decide)
  case noError.noError | invalidBus.invalidBus => rfl

/-- Settles O47: the codes of the missing pins are the slot indices, below 12, and the others stand above. -/
theorem errorCodesAreDistinct : Obligations.ErrorCodesAreDistinct := by
  refine ⟨fun c d h => code_injective h, fun c => ?_, rfl, rfl, fun p => rfl, rfl⟩
  cases c with
  | missingPin p => exact ⟨code_missingPin_ne p (by decide), code_missingPin_ne p (by decide)⟩
  | noError => decide
  | invalidBus => decide

end Sys2Proof.Machine

/-! Proofs for the family of 70_reset_and_hazards.md: the least time of an instruction (R235) is that of the script it attempts,
since waits happen whatever is bound; a transmission waits once, and the waits of a run of scripts add (R9). -/

namespace Sys2Proof.Machine

/-! ## The least time of a script -/

theorem leastTime_append (l m : List Event) : leastTime (l ++ m) = leastTime l + leastTime m := by
  simp [leastTime, waitsOf_append]

/-- Only writes are held back by an unbound slot, and a write waits for nothing. -/
theorem leastTime_emitted (b : PerSlot Bool) (l : List Event) : leastTime (emitted b l) = leastTime l := by
  rw [leastTime, waitsOf_emitted, leastTime]

/-- Scripts that take the same time each. -/
theorem leastTime_flatten {ls : List (List Event)} {n : Nat} (h : ∀ l ∈ ls, leastTime l = n) :
    leastTime ls.flatten = ls.length * n := by
  induction ls with
  | nil => simp [leastTime, waitsOf]
  | cons l ls ih =>
    obtain ⟨hl, hls⟩ := List.forall_mem_cons.1 h
    rw [List.flatten_cons, leastTime_append, hl, ih hls, List.length_cons, Nat.succ_mul, Nat.add_comm]

/-- A command waits one command delay (R98). -/
@[simp] theorem leastTime_commandScript (s : State) (b : Byte) : leastTime (s.commandScript b) = Config.tCmd := by
  simp [leastTime, Config.Duration.micros]

/-- A data byte waits one character delay (R98). -/
@[simp] theorem leastTime_dataScript (s : State) (b : Byte) : leastTime (s.dataScript b) = Config.tChr := by
  simp [leastTime, Config.Duration.micros]

/-- Bytes sent as data take one character delay each. -/
theorem leastTime_flatten_dataScript (s : State) (l : List Byte) :
    leastTime (l.map s.dataScript).flatten = l.length * Config.tChr := by
  rw [leastTime_flatten (n := Config.tChr) (by simp), List.length_map]

/-- A command sent `n` times takes `n` command delays. -/
theorem leastTime_flatten_replicate_commandScript (s : State) (n : Nat) (b : Byte) :
    leastTime (List.replicate n (s.commandScript b)).flatten = n * Config.tCmd := by
  rw [leastTime_flatten (n := Config.tCmd) (by simp), List.length_replicate]

/-! ## The least time of an instruction -/

theorem leastTime_newEvents_effect (i : Instr) (s : State) :
    leastTime (newEvents s (effect i s)) = leastTime (scriptOf i (registersAfter i s)) := by
  rw [newEvents_of_trace (effect_trace i s), leastTime_emitted]

/-- In phase `RDY`, an operation of that phase completes in the time of its script. -/
theorem exec_takes_of_rdy {i : Instr} {s : State} {n : Nat} (h : s.phase = .rdy) (hneed : phaseNeeded i = some .rdy)
    (hn : leastTime (scriptOf i (registersAfter i s)) = n) : ∃ t, exec i s = .next t ∧ leastTime (newEvents s t) = n := by
  refine ⟨effect i s, exec_next fun p hp => ?_, (leastTime_newEvents_effect i s).trans hn⟩
  obtain rfl : Phase.rdy = p := Option.some.inj (hneed.symm.trans hp)
  exact h

/-- Settles O58: an operation of one transmission has one delay, whatever byte it sends; `print` and `scroll` are runs of
transmissions of one kind, and `set_character` is a command before a run of data bytes. -/
theorem operationsTakeTheirLeastTime : Obligations.OperationsTakeTheirLeastTime := by
  intro s h
  have takes {i : Instr} {n : Nat} := exec_takes_of_rdy (i := i) (n := n) h
  refine ⟨fun i hi => ?_, fun col row => takes rfl (leastTime_commandScript _ _),
    fun b => ⟨takes rfl (leastTime_commandScript s b), takes rfl (leastTime_commandScript s b),
      takes rfl (leastTime_dataScript s b), takes rfl (leastTime_dataScript s b)⟩,
    fun l => takes rfl ?_, fun d n => takes rfl ?_, fun k g => takes rfl ?_⟩
  · simp only [List.mem_cons, List.not_mem_nil, or_false] at hi
    rcases hi with rfl | rfl | rfl | rfl | rfl | rfl | rfl | rfl | rfl | rfl | rfl | rfl <;>
      exact takes rfl (leastTime_commandScript _ _)
  · exact (leastTime_flatten_dataScript s (l.map charByte)).trans (by rw [List.length_map])
  · exact leastTime_flatten_replicate_commandScript s n.toNat (shiftCommand d)
  · calc leastTime (s.commandScript (glyphCommand k) ++ (g.map s.dataScript).flatten)
      _ = leastTime (s.commandScript (glyphCommand k)) + leastTime (g.map s.dataScript).flatten := leastTime_append _ _
      _ = Config.tCmd + g.length * Config.tChr := by rw [leastTime_commandScript, leastTime_flatten_dataScript]

end Sys2Proof.Machine

/-! Proofs for the family other.  First the rules that hold of every step (10_state.md sections 2, 6 and 10, and item 1 of
95_test_vectors.md section 4): a step idles, or has the effect of the oldest request, which writes its registers and then appends
what its script emits. -/

namespace Sys2Proof.Machine

/-! ## The invariant of the host side (R31 (d), (e)) -/

/-- Accessors attempt nothing (R168); what else needs no phase is a wire item. -/
theorem scriptOf_of_accessor {i : Instr} (hhost : i.isHost = true) (hneed : phaseNeeded i = none) (s : State) :
    scriptOf i s = [] := by
  cases i
  case getDisplay | getCursor | getBlink | getAutoscroll | getLayout | lines | size | busWidth | error => rfl
  case clearDisplay | returnHome | entryModeSet | displayControl | cursorDisplayShift | functionSet | setCgramAddr
    | setDdramAddr | dataWrite | rawNibbleSync | rawNibbleCommit => cases hhost
  all_goals cases hneed

/-- A host operation that completes in phase `CFG` attempts nothing, but for `build` (R124, R168, R204). -/
theorem effect_of_host_in_cfg {i : Instr} {s : State} (hhost : i.isHost = true) (hb : i ≠ .build)
    (hphase : ∀ p, phaseNeeded i = some p → s.phase = p) (hcfg : s.phase = .cfg) : effect i s = registersAfter i s := by
  cases hneed : phaseNeeded i with
  | none => exact effect_of_silent hb (scriptOf_of_accessor hhost hneed _)
  | some p =>
    obtain rfl : .cfg = p := hcfg.symm.trans (hphase p hneed)
    exact effect_of_cfg hneed hb s

/-- A host operation that completes keeps the invariant: `build` leaves phase `CFG`, and no other touches a line or `err` in it. -/
theorem effect_hostInv {i : Instr} {s : State} (hhost : i.isHost = true)
    (hphase : ∀ p, phaseNeeded i = some p → s.phase = p) (h : s.HostInv) : (effect i s).HostInv := by
  have hpending : (effect i s).pending = s.pending := by
    obtain ⟨-, -, -, -, -, -, -, -, hpending, -⟩ := effect_registers i s
    exact hpending
  have hsilent : (effect i s).phase = .cfg → s.phase = .cfg ∧ effect i s = registersAfter i s := by
    intro hcfg
    rw [effect_phase] at hcfg
    split at hcfg
    · cases hcfg
    · exact ⟨hcfg, effect_of_host_in_cfg hhost ‹_› hphase hcfg⟩
  refine ⟨hpending ▸ h.hostOnly, fun hcfg => ?_, fun hcfg => ?_⟩
  · obtain ⟨hs, heq⟩ := hsilent hcfg
    rw [heq, registersAfter_level, registersAfter_trace]
    exact h.silent hs
  · obtain ⟨hs, heq⟩ := hsilent hcfg
    rw [heq, registersAfter_err]
    exact h.noError hs

/-- Settles O50: a step idles, or has the effect of the oldest request, which is a host operation. -/
theorem stepKeepsTheHostInvariant : Obligations.StepKeepsTheHostInvariant := by
  intro s t h hstep
  obtain ⟨-, rfl⟩ | ⟨i, rest, hpending, -, hexec⟩ := step_cases hstep
  · exact h
  · obtain ⟨hphase, rfl⟩ := exec_cases hexec
    obtain ⟨hhost, hrest⟩ := List.forall_mem_cons.1 (hpending ▸ h.hostOnly)
    exact effect_hostInv hhost hphase ⟨hrest, h.silent, h.noError⟩

/-! ## What a step appends -/

/-- A step appends what a `Tame` script emits through the slots bound before it. -/
theorem step_trace {s t : State} (h : step s = .next t) : ∃ l, Tame l ∧ t.trace = s.trace ++ emitted s.bound l := by
  obtain ⟨-, rfl⟩ | ⟨i, rest, -, -, hexec⟩ := step_cases h
  · exact ⟨[], .nil, by simp⟩
  · obtain ⟨-, rfl⟩ := exec_cases hexec
    refine ⟨_, .scriptOf i (registersAfter i (s.setPending rest)), ?_⟩
    rw [effect_trace, emitted_registersAfter_bound]
    rfl

/-- Settles O51: what a `Tame` script emits has whole pulses, and they follow whole pulses. -/
theorem stepKeepsPulsesWhole : Obligations.StepKeepsPulsesWhole := by
  intro s t h hstep
  obtain ⟨l, hl, htrace⟩ := step_trace hstep
  rw [htrace, pulsesWhole_append h]
  exact hl.whole s.bound

/-- Settles O52: a `Tame` script never raises RW, and the writes that are emitted are those of bound slots. -/
theorem stepAppendsOnlyBoundWrites : Obligations.StepAppendsOnlyBoundWrites := by
  intro s t hstep
  obtain ⟨l, hl, htrace⟩ := step_trace hstep
  refine ⟨_, htrace, fun hmem => hl.writes (List.mem_of_mem_filter hmem), fun e he => ?_⟩
  have hreach : reaches s.bound e = true := List.of_mem_filter he
  cases e with
  | drive p lv => exact hreach
  | wait d => trivial

/-! ## Phases and what they freeze -/

/-- Settles O37: completion and refusal depend on the phase column alone. -/
theorem operationsCompleteExactlyInTheirPhase : Obligations.OperationsCompleteExactlyInTheirPhase := by
  refine fun i s => ⟨fun hneed => ⟨effect i s, exec_next fun p hp => ?_⟩, fun p => exec_refused⟩
  rcases hneed with hneed | hneed <;> rw [hneed] at hp
  · cases hp
  · exact Option.some.inj hp

/-- Settles O40: `build` needs phase `CFG` and ends by entering `RDY`; no other instruction writes the phase. -/
theorem onlyBuildLeavesConfiguration : Obligations.OnlyBuildLeavesConfiguration := by
  intro i s t hexec
  obtain ⟨hphase, rfl⟩ := exec_cases hexec
  rw [effect_phase]
  refine ⟨fun hb => ?_, fun hb => if_neg hb⟩
  subst hb
  exact ⟨hphase .cfg rfl, rfl⟩

/-- Settles O41: in phase `RDY` no configuration operation completes, and only those write the frozen fields; none unbinds. -/
theorem readyFreezesTheConfiguration : Obligations.ReadyFreezesTheConfiguration := by
  intro s t hstep
  obtain ⟨-, rfl⟩ | ⟨i, rest, -, -, hexec⟩ := step_cases hstep
  · exact ⟨fun h => ⟨h, rfl, rfl, rfl, rfl, rfl⟩, fun p hp => hp, rfl⟩
  · obtain ⟨hphase, rfl⟩ := exec_cases hexec
    obtain ⟨hbound, hfunc, -, -, hcols, hoffsets, hreliable, hrepeats, -, -⟩ := effect_registers i (s.setPending rest)
    refine ⟨fun hrdy => ?_, fun p hp => ?_, hrepeats⟩
    · have hcfg : phaseNeeded i ≠ some .cfg := fun hneed => by
        cases hrdy.symm.trans (hphase .cfg hneed)
      have hb : i ≠ .build := fun hb => hcfg (hb ▸ rfl)
      obtain ⟨hbound', hfunc', hcols', hoffsets', hreliable'⟩ := registersAfter_frozen hcfg (s.setPending rest)
      refine ⟨?_, hbound.trans hbound', hfunc.trans hfunc', hcols.trans hcols', hoffsets.trans hoffsets',
        hreliable.trans hreliable'⟩
      rw [effect_phase, if_neg hb]
      exact hrdy
    · rw [hbound]
      exact registersAfter_bound_mono i _ hp

end Sys2Proof.Machine

/-! Proofs for the family other, continued: the primitives (40_transmission.md section 1), the wire items (30_encoding.md sections
1 to 3), and the operations of phase `RDY` (40_transmission.md section 2, 43_control_ops.md), each with its script. -/

namespace Sys2Proof.Machine

/-! ## Primitives -/

/-- Settles O3: the two cases of the guarded pin write. -/
theorem driveIsGuardedByBound : Obligations.DriveIsGuardedByBound := by
  refine fun p lv s => ⟨fun hbound => ?_, fun hunbound => drive_of_unbound hunbound lv⟩
  rw [drive_of_bound hbound]
  refine ⟨fun q => ?_, rfl⟩
  rw [State.setLevel_level, State.emit_level, PerSlot.get_set]

/-- Settles O7: an update performs the frame of the stored width, and with every line wired it emits the whole of it. -/
theorem updatePicksTheFrameByTheWidthFlag : Obligations.UpdatePicksTheFrameByTheWidthFlag := by
  intro v s
  rw [update_eq_performed, eightBit_eq]
  refine ⟨rfl, fun hw => ?_⟩
  rw [newEvents_performed]
  cases h : s.eightBit
  · exact congrArg List.length (wired_frame4 hw v)
  · exact congrArg List.length (wired_frame8 hw h v)

/-! ## Wire items -/

/-- A command item performs the script of its byte (R62). -/
theorem exec_eq_performed_of_encode_cmd {i : Instr} {b : Byte} (h : encode i = some ⟨.cmd, b⟩) (s : State) :
    exec i s = .next (s.performed (s.commandScript b)) := by
  rw [exec_of_encode_cmd h, command_eq_performed]

/-- The opcode and the address bits of R70 do not overlap, so OR is addition. -/
theorem encode_setCgramAddr_eq (a : BitVec 6) :
    encode (.setCgramAddr a) = some ⟨.cmd, BitVec.ofNat 8 (0x40 + a.toNat)⟩ := by
  revert a
  decide

/-- The opcode and the address bits of R71 do not overlap, so OR is addition. -/
theorem encode_setDdramAddr_eq (a : BitVec 7) :
    encode (.setDdramAddr a) = some ⟨.cmd, BitVec.ofNat 8 (0x80 + a.toNat)⟩ := by
  revert a
  decide

/-- Settles O8: each row's code is its byte, which is transmitted with RS low. -/
theorem commandItemsTransmitTheirByte : Obligations.CommandItemsTransmitTheirByte := by
  refine fun s => ⟨exec_eq_performed_of_encode_cmd rfl s, exec_eq_performed_of_encode_cmd rfl s,
    fun id sc => exec_eq_performed_of_encode_cmd ?_ s, fun d c b => exec_eq_performed_of_encode_cmd ?_ s,
    fun sc rl => exec_eq_performed_of_encode_cmd ?_ s, fun dl n f => exec_eq_performed_of_encode_cmd ?_ s,
    fun a => exec_eq_performed_of_encode_cmd (encode_setCgramAddr_eq a) s,
    fun a => exec_eq_performed_of_encode_cmd (encode_setDdramAddr_eq a) s⟩
  · cases id <;> cases sc <;> rfl
  · cases d <;> cases c <;> cases b <;> rfl
  · cases sc <;> cases rl <;> rfl
  · cases dl <;> cases n <;> cases f <;> rfl

/-- Settles O9: a data item is a write of its byte, a raw nibble one 4-bit frame. -/
theorem dataAndNibbleItemsTransmit : Obligations.DataAndNibbleItemsTransmit := by
  refine fun s => ⟨fun d => ?_, congrArg Host.Outcome.next (frame4_eq_performed _ s),
    congrArg Host.Outcome.next (frame4_eq_performed _ s)⟩
  rw [exec_dataWrite, write_eq_performed]

/-! ## Operations of phase `RDY` -/

/-- A runtime operation completes in phase `RDY`: it writes its registers, then performs its script. -/
theorem exec_of_rdy {i : Instr} {s : State} (h : s.phase = .rdy) (hneed : phaseNeeded i = some .rdy) :
    exec i s = .next ((registersAfter i s).performed (scriptOf i (registersAfter i s))) := by
  have hb : i ≠ .build := by
    rintro rfl
    cases hneed
  rw [exec_next fun p hp => h.trans (Option.some.inj (hneed.symm.trans hp)), effect_of_ne_build hb]

/-- Settles O23: a byte is sent by the script of its RS value. -/
theorem sendTransmitsOneByte : Obligations.SendTransmitsOneByte :=
  fun _ _ h => ⟨exec_of_rdy h rfl, exec_of_rdy h rfl, exec_of_rdy h rfl, exec_of_rdy h rfl⟩

/-- Settles O26: each is one command. -/
theorem clearAndHomeSendTheirCommand : Obligations.ClearAndHomeSendTheirCommand :=
  fun _ h => ⟨exec_of_rdy h rfl, exec_of_rdy h rfl⟩

/-- The position is the sum of row base and column modulo 256 (R50, R152). -/
theorem position_eq_ofNat (func : Byte) (o : RowOffsets) (col row : Byte) :
    position func o col row = BitVec.ofNat 8 ((o.get (clampRow func row)).toNat + col.toNat) :=
  BitVec.eq_of_toNat_eq (by simp [position, BitVec.toNat_add])

/-- Settles O27: the row clamp is a minimum, and the sum wraps as a byte. -/
theorem setPositionSendsTheClampedAddress : Obligations.SetPositionSendsTheClampedAddress := by
  intro s col row h
  have hexec : exec (.setPosition col row) s =
      .next (s.performed (s.commandScript (0x80 ||| position s.func s.offsets col row))) := exec_of_rdy h rfl
  rw [hexec, position_eq_ofNat, clampRow_eq]
  rfl

/-- Settles O28: `n` shift commands of one byte, and for `n = 0` the empty script. -/
theorem scrollSendsExactlyNShiftCommands : Obligations.ScrollSendsExactlyNShiftCommands :=
  fun _ _ h => ⟨exec_of_rdy h rfl, exec_of_rdy h rfl, inPhase_eq_next _ h, inPhase_eq_next _ h⟩

/-- Settles O29: the register part writes one bit of `ctrl`, and the script sends the register it wrote. -/
theorem controlTogglesWriteOneBitAndPush : Obligations.ControlTogglesWriteOneBitAndPush :=
  fun _ h => ⟨exec_of_rdy h rfl, exec_of_rdy h rfl, exec_of_rdy h rfl, exec_of_rdy h rfl, exec_of_rdy h rfl,
    exec_of_rdy h rfl⟩

/-- Settles O30: the register part writes one bit of `mode`, and the script sends the register it wrote. -/
theorem modeTogglesWriteOneBitAndPush : Obligations.ModeTogglesWriteOneBitAndPush := by
  intro s h push
  have hpush : exec (.setLayout .rightToLeft) s = .next (push (clearBits maskLayout s.mode ||| layoutBits .rightToLeft)) :=
    exec_of_rdy h rfl
  have hzero : clearBits maskLayout s.mode ||| layoutBits .rightToLeft = s.mode &&& ~~~0x02 := BitVec.or_zero
  rw [hzero] at hpush
  exact ⟨exec_of_rdy h rfl, exec_of_rdy h rfl, exec_of_rdy h rfl, hpush⟩

/-- Settles O32: the address command, then the rows as data, on the state whose framing nothing changes. -/
theorem setCharacterSendsTheAddressThenTheRows : Obligations.SetCharacterSendsTheAddressThenTheRows := by
  intro s k g h
  have haddress : glyphCommand k = 0x40 ||| BitVec.ofNat 8 (k.toNat % 8 * 8) := by
    revert k
    decide
  rw [← haddress]
  exact exec_of_rdy h rfl

/-- Settles O33: one data transmission per character, of its code modulo 256. -/
theorem printSendsEachCodeAsOneByte : Obligations.PrintSendsEachCodeAsOneByte := by
  intro s t h
  have hexec : exec (.print t) s = .next (s.performed ((t.map charByte).map s.dataScript).flatten) := exec_of_rdy h rfl
  rw [hexec, List.map_map]
  simp only [Function.comp_def, charByte_eq]

/-- Settles O34: a backlight operation is one guarded pin write of BL. -/
theorem backlightDrivesItsLineOrRecordsIt : Obligations.BacklightDrivesItsLineOrRecordsIt := by
  intro s h
  have hexec (lv : Level) : inRdy (drive .bl lv) s = .next (drive .bl lv s) := inPhase_eq_next _ h
  refine ⟨fun hbound => ?_, fun hunbound => ?_⟩
  · have hdrive (lv : Level) := (hexec lv).trans (congrArg Host.Outcome.next (drive_of_bound (p := .bl) hbound lv))
    exact ⟨hdrive .high, hdrive .low⟩
  · have hdrive (lv : Level) := (hexec lv).trans (congrArg Host.Outcome.next (drive_of_unbound (p := .bl) hunbound lv))
    exact ⟨hdrive .high, hdrive .low⟩

/-! ## On, then off (90_conflicts.md C6) -/

/-- In phase `RDY`, `i` completes with `g` of the register `reg` in its place and one command sent. -/
def PushesRegister (i : Instr) (reg : State → Byte) (g : Byte → Byte) : Prop :=
  ∀ s : State, s.phase = .rdy → ∃ (t : State) (b : Byte), exec i s = .next t ∧ t.phase = .rdy ∧ reg t = g (reg s) ∧
    t.trace = s.trace ++ emitted s.bound (s.commandScript b)

theorem pushesRegister_of_command {i : Instr} {reg : State → Byte} {g : Byte → Byte} (hneed : phaseNeeded i = some .rdy)
    (hreg : ∀ s l, reg ((registersAfter i s).performed l) = g (reg s))
    (hscript : ∀ s, ∃ b, scriptOf i (registersAfter i s) = s.commandScript b) : PushesRegister i reg g := by
  intro s h
  obtain ⟨b, hb⟩ := hscript s
  have hcfg : phaseNeeded i ≠ some .cfg := by simp [hneed]
  obtain ⟨hbound, -⟩ := registersAfter_frozen hcfg s
  refine ⟨_, b, exec_of_rdy h hneed, ?_, hreg s _, ?_⟩
  · rw [State.performed_phase, registersAfter_phase, h]
  · rw [State.performed_trace, registersAfter_trace, hbound, hb]

/-- Setting bits before they are cleared changes nothing. -/
theorem clearBits_setBits (mask v : Byte) : clearBits mask (setBits mask v) = v &&& ~~~mask := by
  ext i hi
  simp only [clearBits, setBits, BitVec.getElem_and, BitVec.getElem_or, BitVec.getElem_not]
  cases v[i] <;> cases mask[i] <;> rfl

/-- Setting and then clearing bits of a register leaves them clear and sends two commands. -/
theorem push_on_off {on off : Instr} {reg : State → Byte} {mask : Byte} (hon : PushesRegister on reg (setBits mask))
    (hoff : PushesRegister off reg (clearBits mask)) {bit : Nat}
    (hmask : ∀ v : Byte, v.getLsbD bit = false → v &&& ~~~mask = v) {s : State} (h : s.phase = .rdy) :
    ∃ t u, exec on s = .next t ∧ exec off t = .next u ∧ reg u = reg s &&& ~~~mask ∧
      ((reg s).getLsbD bit = false → reg u = reg s) ∧ waitsOf (newEvents s u) = [.cmd, .cmd] := by
  obtain ⟨t, b, hexec, hphase, hreg, htrace⟩ := hon s h
  obtain ⟨u, c, hexec', -, hreg', htrace'⟩ := hoff t hphase
  have hclear : reg u = reg s &&& ~~~mask := by rw [hreg', hreg, clearBits_setBits]
  refine ⟨t, u, hexec, hexec', hclear, fun hbit => hclear.trans (hmask _ hbit), ?_⟩
  rw [htrace, List.append_assoc] at htrace'
  rw [newEvents_of_trace htrace', waitsOf_append, waitsOf_emitted, waitsOf_emitted, waitsOf_commandScript,
    waitsOf_commandScript]
  rfl

/-- Settles O31: each pair sets, then clears, one bit of its register. -/
theorem toggleOnThenOffClearsTheBit : Obligations.ToggleOnThenOffClearsTheBit := by
  have pushes {i : Instr} {reg : State → Byte} {g : Byte → Byte} := pushesRegister_of_command (i := i) (reg := reg) (g := g)
  have bit2 : ∀ v : Byte, v.getLsbD 2 = false → v &&& ~~~0x04 = v := by decide
  have bit1 : ∀ v : Byte, v.getLsbD 1 = false → v &&& ~~~0x02 = v := by decide
  have bit0 : ∀ v : Byte, v.getLsbD 0 = false → v &&& ~~~0x01 = v := by decide
  exact fun s h =>
    ⟨push_on_off (pushes rfl (fun _ _ => rfl) fun _ => ⟨_, rfl⟩) (pushes rfl (fun _ _ => rfl) fun _ => ⟨_, rfl⟩) bit2 h,
      push_on_off (pushes rfl (fun _ _ => rfl) fun _ => ⟨_, rfl⟩) (pushes rfl (fun _ _ => rfl) fun _ => ⟨_, rfl⟩) bit1 h,
      push_on_off (pushes rfl (fun _ _ => rfl) fun _ => ⟨_, rfl⟩) (pushes rfl (fun _ _ => rfl) fun _ => ⟨_, rfl⟩) bit0 h,
      push_on_off (pushes rfl (fun _ _ => rfl) fun _ => ⟨_, rfl⟩) (pushes rfl (fun _ _ => rfl) fun _ => ⟨_, rfl⟩) bit0 h⟩

/-! ## Accessors -/

/-- Settles O35: an accessor reads one bit of a register, or `err`, and appends an answer. -/
theorem accessorsReturnTheirFieldAndChangeNothing : Obligations.AccessorsReturnTheirFieldAndChangeNothing := by
  have bits : ∀ v : Byte, testBits maskDisplay v = v.getLsbD 2 ∧ testBits maskCursor v = v.getLsbD 1 ∧
      testBits maskBlink v = v.getLsbD 0 ∧ testBits maskAutoscroll v = v.getLsbD 0 := by decide
  have layout : ∀ v : Byte, layoutOf v = if v.getLsbD 1 then .leftToRight else .rightToLeft := by decide
  have size : ∀ v : Byte, cellSizeOf v = if v.getLsbD 2 then .dots5x10 else .dots5x8 := by decide
  intro s ret
  have reads {a b : Answer} (hab : a = b) : reply a s = ret b := by
    rw [hab]
    rfl
  obtain ⟨hdisplay, hcursor, hblink, -⟩ := bits s.ctrl
  obtain ⟨-, -, -, hautoscroll⟩ := bits s.mode
  exact ⟨reads (congrArg Answer.bool hdisplay), reads (congrArg Answer.bool hcursor), reads (congrArg Answer.bool hblink),
    reads (congrArg Answer.bool hautoscroll), reads (congrArg Answer.layout (layout s.mode)),
    reads (congrArg Answer.size (size s.func)), rfl, rfl⟩

/-- The line mode by bits 3 and 2; the code `01` is one line (R16). -/
theorem lineCountOf_eq : ∀ f : Byte, lineCountOf f =
    if f.getLsbD 3 then (if f.getLsbD 2 then .fourLines else .twoLines) else .oneLine := by decide

/-- What `with_lines` writes reads back (E8). -/
theorem lineCountOf_lineBits (f : Byte) (v : LineCount) : lineCountOf (clearBits maskLines f ||| lineBits v) = v := by
  revert f
  cases v <;> decide

/-- `lines()` returns the line mode of `func` (R169). -/
theorem exec_lines (s : State) : exec .lines s = .next (s.answer (.lines (lineCountOf s.func))) := rfl

/-- Settles O36: `lines()` reads two bits, which `with_lines` both writes. -/
theorem linesReadsBackWhatWithLinesSet : Obligations.LinesReadsBackWhatWithLinesSet := by
  refine ⟨fun s => ?_, fun s v h => ⟨s.setFunc (clearBits maskLines s.func ||| lineBits v), inPhase_eq_next _ h, ?_⟩⟩
  · rw [exec_lines, lineCountOf_eq]
    rfl
  · rw [exec_lines, State.setFunc_func, lineCountOf_lineBits]
    rfl

end Sys2Proof.Machine

/-! Proofs for the family other, continued: what a transmission latches (R100, R102) and which error it leaves (R196), and the
errors of a machine with every line wired (R203). -/

namespace Sys2Proof.Machine

/-! ## Frames as their data lines between two writes of EN (R60, R61) -/

/-- The data lines of one frame, each with the bit it shows, in the order of their writes. -/
def frameLines (eight : Bool) : List (Slot × Nat) :=
  if eight then [(.d7, 7), (.d6, 6), (.d5, 5), (.d4, 4), (.d3, 3), (.d2, 2), (.d1, 1), (.d0, 0)]
  else [(.d7, 3), (.d6, 2), (.d5, 1), (.d4, 0)]

/-- The writes of the data lines of one frame. -/
def lineScript (eight : Bool) (v : Byte) : List Event := (frameLines eight).map fun p => lineEvent p.1 v p.2

/-- One frame of either width: EN low, the data lines, an enable pulse. -/
def frameScript (eight : Bool) (v : Byte) : List Event :=
  Event.drive .en .low :: lineScript eight v ++ [Event.drive .en .high, Event.drive .en .low]

theorem frame4Script_eq (v : Byte) : frame4Script v = frameScript false v := rfl

theorem frame8Script_eq (v : Byte) : frame8Script v = frameScript true v := rfl

/-- Data lines are not EN. -/
theorem drive_en_not_mem_lineScript (eight : Bool) (v : Byte) (lv : Level) : .drive .en lv ∉ lineScript eight v := by
  cases eight <;> simp [lineScript, frameLines, lineEvent]

/-- The data lines in reverse order of their writes are the active ones, lowest first. -/
theorem map_fst_reverse_frameLines (s : State) : (frameLines s.eightBit).reverse.map Prod.fst = s.activeData := by
  unfold State.activeData
  rw [eightBit_eq]
  cases s.eightBit <;> rfl

/-! ## Latches, whatever is bound but EN (R102) -/

/-- Events that leave EN alone latch nothing before the script that follows them. -/
theorem latches_quiet_append (w : Nat) {l : List Event} (h : ∀ v : Level, .drive .en v ∉ l) (m : List Event)
    (lv : PerSlot (Option Level)) : latches w lv (l ++ m) = latches w (levelAfter lv l) m := by
  rw [latches_append, (latches_of_quiet w h lv).1, List.nil_append]

/-- A frame latches once and leaves EN low. -/
theorem latches_emitted_frameScript (w : Nat) {b : PerSlot Bool} (hen : b.en = true) (eight : Bool) (v : Byte)
    {lv : PerSlot (Option Level)} (h : lv.en ≠ some .high) :
    (latches w lv (emitted b (frameScript eight v))).length = 1 ∧
      (levelAfter lv (emitted b (frameScript eight v))).en = some .low :=
  latches_emitted_frame w hen (drive_en_not_mem_lineScript eight v) h

theorem length_latches_byteScript {s : State} (hen : s.bound.en = true) {lv : PerSlot (Option Level)}
    (h : lv.en ≠ some .high) (b : Byte) :
    (latches s.width lv (emitted s.bound (byteScript s.eightBit b))).length = if s.eightBit then 1 else 2 := by
  have frame (eight : Bool) (v : Byte) {lv : PerSlot (Option Level)} (h : lv.en ≠ some .high) :=
    latches_emitted_frameScript s.width hen eight v h
  cases h8 : s.eightBit
  · obtain ⟨hhigh, hen'⟩ := frame false (b >>> 4) h
    obtain ⟨hlow, -⟩ := frame false (b &&& 0x0F) (ne_of_eq_of_ne hen' (by decide : some Level.low ≠ some .high))
    rw [byteScript, if_neg Bool.false_ne_true, emitted_append, latches_append, List.length_append, frame4Script_eq,
      frame4Script_eq, hhigh, hlow]
    rfl
  · exact (frame true b h).1

/-- Events that leave EN alone, around the frames of a byte, do not change the number of latches. -/
theorem length_latches_around_byteScript {s : State} (hen : s.bound.en = true) (h : s.level.en ≠ some .high) (b : Byte)
    {before after : List Event} (hbefore : ∀ v : Level, .drive .en v ∉ before) (hafter : ∀ v : Level, .drive .en v ∉ after) :
    (latches s.width s.level (emitted s.bound (before ++ byteScript s.eightBit b ++ after))).length =
      if s.eightBit then 1 else 2 := by
  have quiet {l : List Event} (hl : ∀ v : Level, .drive .en v ∉ l) (v : Level) : .drive .en v ∉ emitted s.bound l :=
    fun hm => hl v (List.mem_of_mem_filter hm)
  have hlevel := (latches_of_quiet s.width (quiet hbefore) s.level).2
  rw [emitted_append, emitted_append, List.append_assoc, latches_quiet_append _ (quiet hbefore), latches_append,
    (latches_of_quiet s.width (quiet hafter) _).1, List.append_nil]
  exact length_latches_byteScript hen (hlevel ▸ h) b

/-- In phase `RDY`, `send` performs the script of its RS value (R95). -/
theorem exec_send {s : State} (h : s.phase = .rdy) (b : Byte) (rs : Bool) :
    exec (.send b rs) s = .next (s.performed (if rs then s.dataScript b else s.commandScript b)) :=
  exec_of_rdy h rfl

/-- Settles O24: a transmission is the frames of its byte between events that leave EN alone. -/
theorem sendMakesTwoCyclesOrOne : Obligations.SendMakesTwoCyclesOrOne := by
  intro s b rs h hen hlow
  have hrw : ∀ v : Level, .drive .en v ∉ rwScript s.bound.rw := by
    cases s.bound.rw <;> simp [rwScript]
  refine ⟨_, exec_send h b rs, ?_⟩
  rw [newEvents_performed, eightBit_eq]
  cases rs
  · exact length_latches_around_byteScript hen hlow b (before := .drive .rs .low :: rwScript s.bound.rw) (by simpa using hrw)
      (after := [.wait .cmd]) (by simp)
  · have hcount := length_latches_around_byteScript hen hlow b
      (before := .wait .chr :: .drive .rs .high :: rwScript s.bound.rw) (by simpa using hrw) (after := []) (by simp)
    rwa [List.append_nil] at hcount

/-- Settles O25: with every line wired all of a transmission is emitted, and its frames latch the byte. -/
theorem sendLatchesTheByte : Obligations.SendLatchesTheByte := by
  intro s b rs h hw hlow
  refine ⟨_, exec_send h b rs, ?_⟩
  rw [newEvents_performed, eightBit_eq]
  cases rs
  · rw [if_neg Bool.false_ne_true, wired_command hw]
    exact (latches_commandScript s b hlow).1
  · rw [if_pos rfl, wired_data hw]
    exact (latches_dataScript s b hlow).1

/-! ## The error a transmission leaves (R196, R228) -/

/-- EN is the last slot a frame attempts. -/
theorem getLast?_missed_frameScript_of_en_unbound {b : PerSlot Bool} (h : b.en = false) (pre : List Slot) (eight : Bool)
    (v : Byte) : (pre ++ missed b (frameScript eight v)).getLast? = some .en := by
  have hmissed : missed b (frameScript eight v) = Slot.en :: missed b (lineScript eight v) ++ [Slot.en] ++ [Slot.en] := by
    simp [frameScript, missed_append, missed, PerSlot.get, h]
  rw [hmissed, ← List.append_assoc, List.getLast?_concat]

/-- With EN bound, a frame misses what its data lines miss. -/
theorem missed_frameScript_of_en_bound {b : PerSlot Bool} (h : b.en = true) (eight : Bool) (v : Byte) :
    missed b (frameScript eight v) = missed b (lineScript eight v) := by
  simp [frameScript, missed_append, missed, PerSlot.get, h]

/-- The last data line missed is the lowest-numbered unbound active one. -/
theorem getLast?_missed_lineScript (s : State) (v : Byte) (pre : List Slot) :
    (pre ++ missed s.bound (lineScript s.eightBit v)).getLast? =
      (s.activeData.find? fun p => !s.bound.get p).or pre.getLast? := by
  rw [← map_fst_reverse_frameLines, List.find?_map, lineScript, getLast?_missed_lines, Function.comp_def]
  cases (frameLines s.eightBit).reverse.find? fun p => !s.bound.get p.1 <;> rfl

theorem getLast?_missed_byteScript_of_en_unbound {s : State} (h : s.bound.en = false) (b : Byte) (pre : List Slot) :
    (pre ++ missed s.bound (byteScript s.eightBit b)).getLast? = some .en := by
  cases s.eightBit
  · rw [byteScript, if_neg Bool.false_ne_true, missed_append, ← List.append_assoc]
    exact getLast?_missed_frameScript_of_en_unbound h _ false (b &&& 0x0F)
  · exact getLast?_missed_frameScript_of_en_unbound h pre true b

theorem getLast?_missed_byteScript_of_en_bound {s : State} (h : s.bound.en = true) (b : Byte) (pre : List Slot) :
    (pre ++ missed s.bound (byteScript s.eightBit b)).getLast? =
      (s.activeData.find? fun p => !s.bound.get p).or pre.getLast? := by
  have hlines := getLast?_missed_lineScript s
  cases h8 : s.eightBit <;> rw [h8] at hlines
  · rw [byteScript, if_neg Bool.false_ne_true, missed_append, frame4Script_eq, frame4Script_eq, missed_frameScript_of_en_bound h,
      missed_frameScript_of_en_bound h, ← List.append_assoc, hlines, hlines, ← Option.or_assoc, Option.or_self]
  · rw [byteScript, if_pos rfl, frame8Script_eq, missed_frameScript_of_en_bound h, hlines]

/-- A transmission attempts RS, then the frames; RW only where it is bound (R97). -/
theorem missed_sendScript (s : State) (b : Byte) (rs : Bool) :
    missed s.bound (if rs then s.dataScript b else s.commandScript b) =
      (if s.bound.rs then [] else [.rs]) ++ missed s.bound (byteScript s.eightBit b) := by
  have hrs (lv : Level) (l : List Event) : missed s.bound (.drive .rs lv :: l) =
      (if s.bound.rs then [] else [.rs]) ++ missed s.bound l := by
    cases h : s.bound.rs <;> simp [missed, PerSlot.get, h]
  have hwait (d : Config.Duration) (l : List Event) : missed s.bound (.wait d :: l) = missed s.bound l := rfl
  have hnil : missed s.bound [] = [] := rfl
  cases rs
  · simp [State.commandScript, commandScript, hrs, hwait, hnil, missed_append, missed_rwScript]
  · simp [State.dataScript, dataScript, hrs, hwait, missed_append, missed_rwScript]

/-- Settles O44: the frames are attempted after RS, each frame's data lines downwards and EN after them. -/
theorem lastUnboundSlotIsTheVisibleError : Obligations.LastUnboundSlotIsTheVisibleError := by
  intro s b rs h
  refine ⟨_, exec_send h b rs, ?_⟩
  rw [State.performed_err, errAfter, missed_sendScript]
  cases hen : s.bound.en
  · rw [getLast?_missed_byteScript_of_en_unbound hen]
    rfl
  · rw [getLast?_missed_byteScript_of_en_bound hen]
    cases s.activeData.find? fun p => !s.bound.get p
    · cases s.bound.rs <;> rfl
    · rfl

/-! ## With every line wired (R203, X6) -/

theorem wired_flatten_data {s : State} (hw : s.wired) (l : List Byte) :
    emitted s.bound (l.map s.dataScript).flatten = (l.map s.dataScript).flatten := by
  refine emitted_flatten fun m hm => ?_
  obtain ⟨b, -, rfl⟩ := List.mem_map.1 hm
  exact wired_data hw b

/-- With every line wired, every instruction but a backlight operation emits all it attempts. -/
theorem wired_scriptOf {s : State} (hw : s.wired) (i : Instr) (hbl : i = .backlightOn ∨ i = .backlightOff → s.bound.bl = true) :
    emitted s.bound (scriptOf i s) = scriptOf i s := by
  cases i
  case build => exact wired_build hw
  case send b rs =>
    cases rs
    · exact wired_command hw b
    · exact wired_data hw b
  case dataWrite b => exact wired_data hw b
  case write b => exact wired_data hw b
  case rawNibbleSync => exact wired_frame4 hw _
  case rawNibbleCommit => exact wired_frame4 hw _
  case print t => exact wired_flatten_data hw (t.map charByte)
  case scroll dir n =>
    refine emitted_flatten fun l hl => ?_
    rw [List.eq_of_mem_replicate hl]
    exact wired_command hw _
  case setCharacter k g => rw [scriptOf, emitted_append, wired_command hw, wired_flatten_data hw]
  case backlightOn => simp [scriptOf, emitted_cons_drive, PerSlot.get, hbl (.inl rfl)]
  case backlightOff => simp [scriptOf, emitted_cons_drive, PerSlot.get, hbl (.inr rfl)]
  case clearDisplay | returnHome | entryModeSet | displayControl | cursorDisplayShift | functionSet | setCgramAddr
    | setDdramAddr | command | clear | home | setPosition | displayOn | displayOff | cursorOn | cursorOff | blinkOn | blinkOff
    | autoscrollOn | autoscrollOff | setLayout => exact wired_command hw _
  all_goals rfl

/-- What an instruction attempts after writing its registers is all emitted: the registers of a runtime operation are not the
bindings nor the width, and a configuration operation attempts nothing. -/
theorem wired_scriptOf_registersAfter {s : State} (hw : s.wired) (i : Instr)
    (hbl : i = .backlightOn ∨ i = .backlightOff → s.bound.bl = true) :
    emitted (registersAfter i s).bound (scriptOf i (registersAfter i s)) = scriptOf i (registersAfter i s) := by
  by_cases hcfg : phaseNeeded i = some .cfg
  · by_cases hb : i = .build
    · subst hb
      exact wired_build hw
    · rw [scriptOf_cfg hcfg hb]
      rfl
  · obtain ⟨hbound, hfunc, -⟩ := registersAfter_frozen hcfg s
    have hw' : (registersAfter i s).wired := by
      unfold State.wired State.eightBit
      rw [hbound, hfunc]
      exact hw
    exact wired_scriptOf hw' i (hbound ▸ hbl)

theorem busBound_of_wired {s : State} (hw : s.wired) : s.busBound = true := by
  obtain ⟨-, -, hd4, -⟩ := hw
  refine busBound_eq_true_iff.2 ⟨.d4, ?_, hd4⟩
  unfold State.activeData
  split <;> decide

/-- Settles O45: nothing is missed, and validation finds the bus. -/
theorem wiredMachineRecordsNoError : Obligations.WiredMachineRecordsNoError := by
  intro i s t hw hexec hbl
  obtain ⟨-, rfl⟩ := exec_cases hexec
  have hall := wired_scriptOf_registersAfter hw i hbl
  by_cases hb : i = .build
  · subst hb
    rw [effect_build, busBound_of_wired hw]
    exact errAfter_of_bound s.err hall
  · rw [effect_err_of_ne_build hb, errAfter_of_bound s.err hall]

end Sys2Proof.Machine

/-! Proofs for the family other, continued: `build` (42_initialization.md), as its script, as the sequencer, and by what that
script latches, waits for and leaves on the lines. -/

namespace Sys2Proof.Machine

/-! ## `build` as its script (R141) -/

/-- In phase `CFG`, `build` completes. -/
theorem exec_build {s : State} (h : s.phase = .cfg) : exec .build s = .next (effect .build s) :=
  exec_next fun _ hneed => h.trans (Option.some.inj hneed)

/-- What is emitted of the script of `build` is all that `build` emits. -/
theorem newEvents_build (s : State) : newEvents s (effect .build s) = emitted s.bound s.buildScript :=
  newEvents_of_trace (effect_trace .build s)

/-- Settles O16: the script, then validation and the phase change. -/
theorem buildRunsTheWholeSequence : Obligations.BuildRunsTheWholeSequence := by
  intro s h
  rw [exec_build h, effect_build]

/-! ## The sequencer (R140) -/

theorem seqWalk_add (m n : Nat) (c : SeqState × State) : seqWalk (m + n) c = seqWalk n (seqWalk m c) := by
  induction m generalizing c with
  | zero => rw [Nat.zero_add]; rfl
  | succ m ih =>
    obtain ⟨q, s⟩ := c
    rw [Nat.succ_add]
    exact ih _

/-- The end of the walk is its last state. -/
theorem seqWalk_done (n : Nat) (s : State) : seqWalk n (.done, s) = (.done, s) := by
  induction n with
  | zero => rfl
  | succ n ih => exact ih

/-- States `S3` to `S9`: three handshake items with their waits, and the commit nibble where the width is 4. -/
def seqHandshake (s : State) : State :=
  s |> handshakeItem |> wait .initLong |> handshakeItem |> wait .initLong |> handshakeItem |> wait .initShort |> seqAction .s9

/-- The handshake's states are step 3 of `build` (R134, R135). -/
theorem seqHandshake_eq_handshake (s : State) : seqHandshake s = handshake s := by
  cases h : s.eightBit
  · simp [seqHandshake, seqAction, handshakeItem, handshake, handshake4, h, update_eq_performed, wait_eq_performed]
  · simp [seqHandshake, seqAction, handshakeItem, handshake, handshake8, h, sendFunction_eq_performed, wait_eq_performed]

/-- The walk takes the actions of `build` in their order. -/
theorem seqWalk_eq_build (s : State) : seqWalk 15 (.s0, s) = (.done, buildAll s) := by
  unfold buildAll commitRegisters
  rw [← seqHandshake_eq_handshake]
  rfl

/-- Settles O19: fifteen moves take every action, and the last state is kept. -/
theorem sequencerWalkEqualsBuild : Obligations.SequencerWalkEqualsBuild := by
  intro s h
  refine ⟨by rw [seqWalk_eq_build], ?_, fun n => ?_⟩
  · rw [seqWalk_eq_build]
    exact inPhase_eq_next buildAll h
  · rw [seqWalk_add, seqWalk_eq_build, seqWalk_done]

/-! ## Latches of `build` (R142) -/

/-- RS low and EN not high: the lines as each command and each frame of `build` leaves them. -/
def CommandLines (lv : PerSlot (Option Level)) : Prop := lv.rs = some .low ∧ lv.en ≠ some .high

/-- From the lines of a command, a script latches `m` and leaves them so. -/
def LatchesAs (w : Nat) (l : List Event) (m : List Latch) : Prop :=
  ∀ lv, CommandLines lv → latches w lv l = m ∧ CommandLines (levelAfter lv l)

theorem LatchesAs.append {w : Nat} {l l' : List Event} {m m' : List Latch} (h : LatchesAs w l m) (h' : LatchesAs w l' m') :
    LatchesAs w (l ++ l') (m ++ m') := by
  intro lv hlv
  obtain ⟨hm, hlines⟩ := h lv hlv
  obtain ⟨hm', hlines'⟩ := h' _ hlines
  rw [latches_append, levelAfter_append, hm, hm']
  exact ⟨rfl, hlines'⟩

theorem LatchesAs.wait (w : Nat) (d : Config.Duration) : LatchesAs w [.wait d] [] :=
  fun lv hlv => ⟨latches_wait w lv d [], hlv⟩

theorem LatchesAs.command (s : State) (b : Byte) : LatchesAs s.width (s.commandScript b) (byteLatches s.eightBit .low b) := by
  intro lv hlv
  obtain ⟨hm, hrs, hen⟩ := latches_commandScript s b hlv.2
  exact ⟨hm, hrs, ne_of_eq_of_ne hen (by decide)⟩

theorem LatchesAs.nibble (v : Byte) : LatchesAs 4 (frame4Script v) [nibbleLatch .low v] := by
  intro lv ⟨hrs, hen⟩
  obtain ⟨hrs', hen'⟩ := levelAfter_frame4 lv v
  refine ⟨?_, hrs'.trans hrs, ne_of_eq_of_ne hen' (by decide)⟩
  rw [latches_frame4 v hen, hrs]
  rfl

/-- What the LCD latches of step 3 (R134, R135). -/
def handshakeLatches (s : State) : List Latch :=
  if s.eightBit then (List.replicate 3 (byteLatches true .low (0x20 ||| s.func))).flatten
  else [nibbleLatch .low 0x03, nibbleLatch .low 0x03, nibbleLatch .low 0x03, nibbleLatch .low 0x02]

theorem LatchesAs.handshake (s : State) : LatchesAs s.width s.handshakeScript (handshakeLatches s) := by
  have command := LatchesAs.command s (0x20 ||| s.func)
  unfold State.handshakeScript handshakeLatches
  cases h : s.eightBit
  · rw [(State.width_eq_four s).2 h]
    exact ((((((LatchesAs.nibble 3).append (.wait 4 _)).append (.nibble 3)).append (.wait 4 _)).append (.nibble 3)).append
      (.wait 4 _)).append (.nibble 2)
  · rw [h] at command
    have hthree := ((((command.append (.wait _ .initLong)).append command).append (.wait _ .initLong)).append
      command).append (.wait _ .initShort)
    simpa [List.replicate_succ] using hthree

/-- The registers committed, then clear and home (R136, R137). -/
theorem LatchesAs.commit (s : State) : LatchesAs s.width
    (([0x20 ||| s.func, 0x08 ||| s.ctrl, 0x04 ||| s.mode, 0x01, 0x02].map s.commandScript).flatten)
    (([0x20 ||| s.func, 0x08 ||| s.ctrl, 0x04 ||| s.mode, 0x01, 0x02].map (byteLatches s.eightBit .low)).flatten) := by
  induction [0x20 ||| s.func, 0x08 ||| s.ctrl, 0x04 ||| s.mode, 0x01, 0x02] with
  | nil => exact fun lv hlv => ⟨rfl, hlv⟩
  | cons b l ih => exact (LatchesAs.command s b).append ih

/-- The events of `build` before the handshake, without a pre-step (R132, R133). -/
def lowScript (s : State) : List Event := [Event.wait .powerup, Event.drive .rs .low, Event.drive .en .low] ++ rwScript s.bound.rw

theorem latches_lowScript (s : State) {lv : PerSlot (Option Level)} (h : lv.en ≠ some .high) :
    latches s.width lv (lowScript s) = [] ∧ CommandLines (levelAfter lv (lowScript s)) := by
  have hen : (lv.en == some Level.high) = false := by simpa using h
  obtain ⟨hrs, hen'⟩ := levelAfter_rwScript (levelAfter lv [.wait .powerup, .drive .rs .low, .drive .en .low]) s.bound.rw
  unfold lowScript
  rw [latches_append, latches_rwScript, levelAfter_append, CommandLines, hrs, hen']
  refine ⟨?_, rfl, ?_⟩
  · simp [latches, isLatchEdge, applyEvent, PerSlot.set, hen]
  · simp [levelAfter, applyEvent, PerSlot.set]

/-- Without a pre-step, `build` is the low lines, the handshake and the commands. -/
theorem buildScript_of_not_reliable {s : State} (h : s.reliable = none) : s.buildScript = lowScript s ++ (s.handshakeScript ++
    ([0x20 ||| s.func, 0x08 ||| s.ctrl, 0x04 ||| s.mode, 0x01, 0x02].map s.commandScript).flatten) := by
  simp [State.buildScript, State.preScript, h, lowScript]

/-- Settles O20: the low lines latch nothing, and leave the lines as the handshake and each command find and leave them. -/
theorem buildLatchesAreTheHandshakeThenTheRegisters : Obligations.BuildLatchesAreTheHandshakeThenTheRegisters := by
  intro s h hw hnone hen
  refine ⟨_, exec_build h, ?_⟩
  obtain ⟨hlow, hlines⟩ := latches_lowScript s hen
  rw [newEvents_build, wired_build hw, buildScript_of_not_reliable hnone, latches_append, hlow]
  exact (((LatchesAs.handshake s).append (.commit s)) _ hlines).1

/-! ## Waits of `build` (R142, R220) -/

/-- A list repeated in pairs. -/
theorem flatten_replicate_append_self {α : Type} (n : Nat) (l : List α) :
    (List.replicate n (l ++ l)).flatten = (List.replicate (2 * n) l).flatten := by
  induction n with
  | zero => rfl
  | succ n ih => simp [Nat.mul_succ, List.replicate_succ, ih]

/-- Each pair of the pre-step waits twice for a command and the requested delay (R131). -/
theorem waitsOf_preScript (s : State) : waitsOf s.preScript =
    s.reliable.elim [] fun d => (List.replicate (2 * s.repeats) [.cmd, .us d]).flatten := by
  unfold State.preScript
  cases s.reliable with
  | none => rfl
  | some d =>
    have hpair (b c : Byte) : waitsOf (s.commandScript b ++ [Event.wait (.us d)] ++ s.commandScript c ++ [Event.wait (.us d)]) =
        [Config.Duration.cmd, .us d] ++ [Config.Duration.cmd, .us d] := by
      simp [waitsOf_append, waitsOf]
    rw [waitsOf_flatten, List.map_replicate, hpair]
    exact flatten_replicate_append_self s.repeats _

theorem waitsOf_handshakeScript (s : State) : waitsOf s.handshakeScript =
    if s.eightBit then [.cmd, .initLong, .cmd, .initLong, .cmd, .initShort] else [.initLong, .initLong, .initShort] := by
  unfold State.handshakeScript
  split <;> simp [waitsOf_append, waitsOf]

/-- The waits of `build`, whatever is bound. -/
theorem waitsOf_buildScript (s : State) : waitsOf s.buildScript =
    waitsOf s.preScript ++ [Config.Duration.powerup] ++ waitsOf s.handshakeScript ++ List.replicate 5 Config.Duration.cmd := by
  simp [State.buildScript, waitsOf_append, waitsOf]

/-- Settles O21: waits happen whatever is bound, so those of the script stand in the trace. -/
theorem buildWaitsStandAtTheProtocolPoints : Obligations.BuildWaitsStandAtTheProtocolPoints := by
  intro s h
  refine ⟨_, exec_build h, ?_⟩
  rw [newEvents_build, waitsOf_emitted, waitsOf_buildScript, waitsOf_preScript, waitsOf_handshakeScript, eightBit_eq]
  cases s.reliable <;> simp

/-! ## Least time of `build` (R235) -/

theorem leastTime_preScript (s : State) : leastTime s.preScript =
    s.reliable.elim 0 fun d => s.repeats * 2 * (Config.tCmd + d) := by
  unfold State.preScript
  cases s.reliable with
  | none => rfl
  | some d =>
    have hwait : leastTime [.wait (.us d)] = d := Nat.add_zero d
    have hpair (b c : Byte) :
        leastTime (s.commandScript b ++ [Event.wait (.us d)] ++ s.commandScript c ++ [Event.wait (.us d)]) = 2 * (Config.tCmd + d) := by
      simp only [leastTime_append, leastTime_commandScript, hwait]
      omega
    rw [leastTime_flatten (n := 2 * (Config.tCmd + d)) fun l hl => by rw [List.eq_of_mem_replicate hl]; exact hpair _ _,
      List.length_replicate, Option.elim_some, Nat.mul_assoc]

theorem leastTime_handshakeScript (s : State) : leastTime s.handshakeScript =
    2 * Config.tInitLong + Config.tInitShort + (if s.eightBit then 3 else 0) * Config.tCmd := by
  rw [leastTime, waitsOf_handshakeScript]
  split
  · simp [Config.Duration.micros]
    omega
  · simp [Config.Duration.micros]
    omega

/-- Settles O59: the waits of each part of the script add. -/
theorem buildTakesItsLeastTime : Obligations.BuildTakesItsLeastTime := by
  intro s t hexec
  obtain ⟨-, rfl⟩ := exec_cases hexec
  rw [newEvents_build, leastTime_emitted]
  have hparts : leastTime s.buildScript =
      leastTime s.preScript + Config.tPowerup + leastTime s.handshakeScript + 5 * Config.tCmd := by
    simp [leastTime, waitsOf_buildScript, Config.Duration.micros]
    omega
  have hcommands : (if s.eightBit then 3 else 0) * Config.tCmd + 5 * Config.tCmd =
      (if s.eightBit then 8 else 5) * Config.tCmd := by
    rw [← Nat.add_mul]
    cases s.eightBit <;> rfl
  rw [hparts, leastTime_preScript, leastTime_handshakeScript, eightBit_eq]
  cases s.reliable with
  | none =>
    simp only [Option.elim_none]
    omega
  | some d =>
    simp only [Option.elim_some]
    omega

/-! ## The lines `build` leaves (R142 (e)) -/

/-- Every write of the script is of a slot of `A`. -/
def DrivesOnly (A : List Slot) (l : List Event) : Prop := ∀ p lv, .drive p lv ∈ l → p ∈ A

theorem drivesOnly_append {A : List Slot} {l m : List Event} : DrivesOnly A (l ++ m) ↔ DrivesOnly A l ∧ DrivesOnly A m := by
  simp only [DrivesOnly, List.mem_append, or_imp, forall_and]

theorem drivesOnly_cons_drive {A : List Slot} {p : Slot} {lv : Level} {l : List Event} :
    DrivesOnly A (.drive p lv :: l) ↔ p ∈ A ∧ DrivesOnly A l := by
  simp [DrivesOnly, or_imp, forall_and]

theorem DrivesOnly.nil (A : List Slot) : DrivesOnly A [] := fun _ _ h => by cases h

theorem DrivesOnly.wait (A : List Slot) (d : Config.Duration) : DrivesOnly A [.wait d] := fun _ _ h => by simp at h

theorem DrivesOnly.flatten_replicate {A : List Slot} {l : List Event} (h : DrivesOnly A l) (n : Nat) :
    DrivesOnly A (List.replicate n l).flatten := by
  intro p lv hmem
  obtain ⟨m, hm, hdrive⟩ := List.mem_flatten.1 hmem
  rw [List.eq_of_mem_replicate hm] at hdrive
  exact h p lv hdrive

/-- A slot that a script does not write keeps its level. -/
theorem DrivesOnly.levelAfter_get {A : List Slot} {l : List Event} (h : DrivesOnly A l) {p : Slot} (hp : p ∉ A)
    (lv : PerSlot (Option Level)) : (levelAfter lv l).get p = lv.get p := by
  induction l generalizing lv with
  | nil => rfl
  | cons e l ih =>
    have hl : DrivesOnly A l := fun q v hm => h q v (List.mem_cons_of_mem _ hm)
    cases e with
    | wait d => exact ih hl lv
    | drive q v =>
      have hne : p ≠ q := fun he => hp (he ▸ h q v (List.mem_cons_self ..))
      rw [levelAfter_drive, ih hl, PerSlot.get_set, if_neg hne]

/-- The slots that transmissions write in the stored width (R32, R41). -/
def State.transmissionSlots (s : State) : List Slot := .rs :: .en :: .rw :: s.activeData

theorem DrivesOnly.lines (s : State) (v : Byte) : DrivesOnly s.transmissionSlots (lineScript s.eightBit v) := by
  intro p lv h
  obtain ⟨q, hq, hline⟩ := List.mem_map.1 h
  obtain ⟨rfl, -⟩ := Event.drive.inj hline
  have hactive : q.1 ∈ s.activeData := by
    rw [← map_fst_reverse_frameLines]
    exact List.mem_map_of_mem (List.mem_reverse.2 hq)
  simp [State.transmissionSlots, hactive]

theorem DrivesOnly.rw (s : State) (r : Bool) : DrivesOnly s.transmissionSlots (rwScript r) := by
  cases r
  · exact .nil _
  · exact drivesOnly_cons_drive.2 ⟨by simp [State.transmissionSlots], .nil _⟩

theorem DrivesOnly.frame4 {s : State} (h : s.eightBit = false) (v : Byte) :
    DrivesOnly s.transmissionSlots (frame4Script v) := by
  have hlines := DrivesOnly.lines s v
  rw [h] at hlines
  simp only [frame4Script_eq, frameScript, drivesOnly_append, drivesOnly_cons_drive, hlines, DrivesOnly.nil]
  simp [State.transmissionSlots]

theorem DrivesOnly.frame8 {s : State} (h : s.eightBit = true) (v : Byte) :
    DrivesOnly s.transmissionSlots (frame8Script v) := by
  have hlines := DrivesOnly.lines s v
  rw [h] at hlines
  simp only [frame8Script_eq, frameScript, drivesOnly_append, drivesOnly_cons_drive, hlines, DrivesOnly.nil]
  simp [State.transmissionSlots]

theorem DrivesOnly.byte (s : State) (b : Byte) : DrivesOnly s.transmissionSlots (byteScript s.eightBit b) := by
  cases h : s.eightBit
  · exact drivesOnly_append.2 ⟨.frame4 h _, .frame4 h _⟩
  · exact .frame8 h b

theorem DrivesOnly.command (s : State) (b : Byte) : DrivesOnly s.transmissionSlots (s.commandScript b) := by
  have hrs : Slot.rs ∈ s.transmissionSlots := List.mem_cons_self ..
  simp only [State.commandScript, commandScript, List.cons_append, drivesOnly_cons_drive, drivesOnly_append, hrs,
    DrivesOnly.rw, DrivesOnly.byte, DrivesOnly.wait, and_self]

theorem DrivesOnly.handshake (s : State) : DrivesOnly s.transmissionSlots s.handshakeScript := by
  unfold State.handshakeScript
  cases h : s.eightBit
  · simp only [Bool.false_eq_true, if_false, drivesOnly_append, DrivesOnly.frame4 h, DrivesOnly.wait, and_self]
  · simp only [if_true, drivesOnly_append, DrivesOnly.command, DrivesOnly.wait, and_self]

theorem DrivesOnly.pre (s : State) : DrivesOnly s.transmissionSlots s.preScript := by
  unfold State.preScript
  cases s.reliable with
  | none => exact .nil _
  | some d =>
    refine .flatten_replicate ?_ s.repeats
    simp only [drivesOnly_append, DrivesOnly.command, DrivesOnly.wait, and_self]

theorem DrivesOnly.build (s : State) : DrivesOnly s.transmissionSlots s.buildScript := by
  have hlow : DrivesOnly s.transmissionSlots (.drive .rs .low :: .drive .en .low :: rwScript s.bound.rw) := by
    simp only [drivesOnly_cons_drive, DrivesOnly.rw, and_true]
    simp [State.transmissionSlots]
  simp only [State.buildScript, drivesOnly_append, DrivesOnly.pre, DrivesOnly.handshake, DrivesOnly.command,
    DrivesOnly.wait, hlow, and_self]

/-- The lines after a transmission of 0x02 in 4-bit mode: its second frame shows the nibble 0x2. -/
theorem levelAfter_home4 (lv : PerSlot (Option Level)) (r : Bool) : levelAfter lv (commandScript false r 0x02) =
    { lv with rs := some .low, en := some .low, rw := if r then some .low else lv.rw
              d7 := some .low, d6 := some .low, d5 := some .high, d4 := some .low } := by
  cases r <;> rfl

/-- The lines after a transmission of 0x02 in 8-bit mode. -/
theorem levelAfter_home8 (lv : PerSlot (Option Level)) (r : Bool) : levelAfter lv (commandScript true r 0x02) =
    { lv with rs := some .low, en := some .low, rw := if r then some .low else lv.rw
              d7 := some .low, d6 := some .low, d5 := some .low, d4 := some .low
              d3 := some .low, d2 := some .low, d1 := some .high, d0 := some .low } := by
  cases r <;> rfl

/-- With every line wired, the levels after `build` are those after its last command, which is 0x02 (R137). -/
theorem level_effect_build {s : State} (hw : s.wired) :
    ∃ lv, (effect .build s).level = levelAfter lv (commandScript s.eightBit s.bound.rw 0x02) := by
  obtain ⟨l, hl⟩ : ∃ l, s.buildScript = l ++ s.commandScript 0x02 := ⟨_, rfl⟩
  refine ⟨levelAfter s.level l, ?_⟩
  rw [effect_level]
  refine (congrArg (levelAfter s.level) (wired_build hw)).trans ?_
  rw [hl, levelAfter_append]
  rfl

/-- With every line wired, `build` leaves a line that its width does not use as it was. -/
theorem level_effect_build_get {s : State} (hw : s.wired) {p : Slot} (hp : p ∉ s.transmissionSlots) :
    (effect .build s).level.get p = s.level.get p := by
  rw [effect_level]
  refine (congrArg (fun l => (levelAfter s.level l).get p) (wired_build hw)).trans ?_
  exact (DrivesOnly.build s).levelAfter_get hp s.level

/-- Settles O22: the last command decides the lines of the stored width, and the other lines are not written. -/
theorem buildLeavesTheLinesAtTheLastFrame : Obligations.BuildLeavesTheLinesAtTheLastFrame := by
  intro s h hw
  obtain ⟨-, hfunc, hctrl, hmode, hcols, hoffsets, -⟩ := effect_registers .build s
  obtain ⟨lv, hlevel⟩ := level_effect_build hw
  refine ⟨_, exec_build h, hfunc, hctrl, hmode, hcols, hoffsets, ?_⟩
  have hkept {p : Slot} := level_effect_build_get hw (p := p)
  unfold State.transmissionSlots State.activeData at hkept
  have hbl : (effect .build s).level.bl = s.level.bl := hkept (p := .bl) (by split <;> decide)
  rw [eightBit_eq] at hkept ⊢
  cases h8 : s.eightBit <;> rw [h8] at hlevel hkept
  · have hd {p : Slot} (hp : p ∉ [Slot.rs, .en, .rw, .d4, .d5, .d6, .d7]) := hkept hp
    have hd3 := hd (p := .d3) (by decide)
    have hd2 := hd (p := .d2) (by decide)
    have hd1 := hd (p := .d1) (by decide)
    have hd0 := hd (p := .d0) (by decide)
    rw [levelAfter_home4] at hlevel
    refine ⟨?_, ?_, fun hrw => ?_, hbl, ?_, ?_, ?_, ?_, hd3, hd2, hd1, hd0⟩ <;> simp only [hlevel]
    exact if_pos hrw
  · rw [levelAfter_home8] at hlevel
    refine ⟨?_, ?_, fun hrw => ?_, hbl, ?_, ?_, ?_, ?_, ?_, ?_, ?_, ?_⟩ <;> simp only [hlevel]
    exact if_pos hrw

end Sys2Proof.Machine

/-! Proofs for the family other, continued: construction and reset (10_state.md section 9), the durations (00_scope.md section 3),
the configuration operations (41_configuration.md), and the codes of the wire items (30_encoding.md section 2). -/

namespace Sys2Proof.Machine

/-! ## Construction and reset (R30) -/

/-- Before the first event every construction with clear reserved bits meets the invariant (R31). -/
theorem construct_inv (bound0 : List Slot) {func0 ctrl0 mode0 : Byte} (n : Nat) (hfunc : func0 &&& ~~~0x1C = 0)
    (hctrl : ctrl0 &&& ~~~0x07 = 0) (hmode : mode0 &&& ~~~0x03 = 0) :
    (State.construct bound0 func0 ctrl0 mode0 n).Inv where
  reserved := ⟨hfunc, hctrl, hmode⟩
  table := ⟨by simp [State.construct, Config.colsDefault], rfl⟩
  undriven p _ := PerSlot.get_fill none p
  idle := ⟨nofun, nofun⟩
  replay := rfl

/-- A construction holds no request, no event and no error. -/
theorem construct_hostInv (bound0 : List Slot) (func0 ctrl0 mode0 : Byte) (n : Nat) :
    (State.construct bound0 func0 ctrl0 mode0 n).HostInv where
  hostOnly _ h := by cases h
  silent _ := ⟨rfl, rfl⟩
  noError _ := rfl

/-- Settles O48: reset is the construction with the default parameters. -/
theorem constructionMeetsTheInvariant : Obligations.ConstructionMeetsTheInvariant :=
  ⟨fun bound0 func0 ctrl0 mode0 n hfunc hctrl hmode =>
    ⟨construct_inv bound0 n hfunc hctrl hmode, construct_hostInv bound0 func0 ctrl0 mode0 n, rfl⟩,
    construct_inv _ _ (by decide) (by decide) (by decide), construct_hostInv _ _ _ _ _⟩

/-- Settles O1: the values of the default parameters, and the slots of `BOUND0`. -/
theorem resetHoldsTheListedValues : Obligations.ResetHoldsTheListedValues := by
  refine ⟨rfl, fun p => ?_, fun p => PerSlot.get_fill none p, rfl, rfl, rfl, rfl, rfl, rfl, rfl, rfl, rfl, rfl, rfl⟩
  cases p <;> decide

/-! ## Durations (R6) -/

/-- Settles O2: a duration is its stated bound and an unknown margin; `T_CMD` is 1000 and a remainder modulo 9000. -/
theorem durationsMeetTheirBounds : Obligations.DurationsMeetTheirBounds := by
  have hpowerup : 40000 ≤ Config.tPowerup := by
    rw [Config.tPowerup]
    omega
  have hcmd : 1000 ≤ Config.tCmd ∧ Config.tCmd < 10000 := by
    rw [Config.tCmd]
    omega
  have hchr : Config.tCmd < Config.tChr := by
    rw [Config.tChr]
    omega
  exact ⟨hpowerup, le_micros_initLong, le_micros_initShort, hcmd.1, hcmd.2, hchr⟩

/-! ## Configuration -/

/-- A configuration operation other than `build` completes in phase `CFG` and only writes its registers. -/
theorem exec_of_cfg {i : Instr} {s : State} (h : s.phase = .cfg) (hneed : phaseNeeded i = some .cfg) (hb : i ≠ .build) :
    exec i s = .next (registersAfter i s) := by
  rw [exec_next fun p hp => h.trans (Option.some.inj (hneed.symm.trans hp)), effect_of_cfg hneed hb]

/-- Binding slot after slot writes the bindings alone. -/
theorem bindAll_eq (l : List Slot) (s : State) :
    bindAll l s = { s with bound := l.foldl (fun b p => b.set p true) s.bound } := by
  induction l generalizing s with
  | nil => rfl
  | cons p l ih => exact ih (s.bindSlot p)

/-- Settles O10: each binder binds its slots, and the two buses write the width flag. -/
theorem bindersSetBoundAndWidth : Obligations.BindersSetBoundAndWidth := by
  refine fun s h => ⟨fun p => ⟨s.bindSlot p, exec_of_cfg h rfl Instr.noConfusion, rfl, fun q => ?_⟩,
    exec_of_cfg h rfl Instr.noConfusion, exec_of_cfg h rfl Instr.noConfusion, ?_, ?_⟩
  · exact PerSlot.get_set s.bound p q true
  · rw [exec_of_cfg h rfl Instr.noConfusion, registersAfter, bindAll_eq]
    rfl
  · rw [exec_of_cfg h rfl Instr.noConfusion, registersAfter, bindAll_eq]
    rfl

/-- The saturated column count and its row 3 base, as numbers. -/
theorem offsetsFor_clampCols (c : Byte) : offsetsFor (clampCols c) =
    { row0 := 0x00, row1 := 0x40, row2 := BitVec.ofNat 8 (min c.toNat 31), row3 := BitVec.ofNat 8 (0x40 + min c.toNat 31) } := by
  rw [clampCols_eq, offsetsFor]
  congr 1
  exact BitVec.eq_of_toNat_eq (by simp [BitVec.toNat_add])

/-- Settles O11: the saturation is a minimum, and the table is computed from it. -/
theorem withColsSaturatesAndRecomputesTheTable : Obligations.WithColsSaturatesAndRecomputesTheTable := by
  intro s c h
  have hexec : exec (.withCols c) s = .next (s.setCols (clampCols c) (offsetsFor (clampCols c))) := inPhase_eq_next _ h
  rw [hexec, offsetsFor_clampCols, clampCols_eq]
  rfl

/-- Settles O12: the addressed bits are cleared, then those of the value are written. -/
theorem sizeAndLineSettersWriteTheirBits : Obligations.SizeAndLineSettersWriteTheirBits := by
  intro s h
  have hsize (v : CellSize) : exec (.withSize v) s = .next (s.setFunc (clearBits maskSize s.func ||| sizeBits v)) :=
    inPhase_eq_next _ h
  have hlines (v : LineCount) : exec (.withLines v) s = .next (s.setFunc (clearBits maskLines s.func ||| lineBits v)) :=
    inPhase_eq_next _ h
  have hsmall : clearBits maskSize s.func ||| sizeBits .dots5x8 = s.func &&& ~~~0x04 := BitVec.or_zero
  have hone : clearBits maskLines s.func ||| lineBits .oneLine = s.func &&& ~~~0x0C := BitVec.or_zero
  refine ⟨?_, hsize .dots5x10, ?_, hlines .twoLines, hlines .fourLines⟩
  · rw [hsize, hsmall]
    rfl
  · rw [hlines, hone]
    rfl

/-- Settles O13: each setter puts its value at one bit of its register. -/
theorem attributeSettersWriteOneBit : Obligations.AttributeSettersWriteOneBit :=
  fun s v h =>
    ⟨⟨_, inPhase_eq_next _ h, getLsbD_putBits_display v s.ctrl⟩, ⟨_, inPhase_eq_next _ h, getLsbD_putBits_cursor v s.ctrl⟩,
      ⟨_, inPhase_eq_next _ h, getLsbD_putBits_blink v s.ctrl⟩, ⟨_, inPhase_eq_next _ h, getLsbD_putBits_blink v s.mode⟩,
      fun l => ⟨_, inPhase_eq_next _ h, getLsbD_putBits_layout l s.mode⟩⟩

/-- Settles O14. -/
theorem reliableInitIsOnlyRecorded : Obligations.ReliableInitIsOnlyRecorded :=
  fun _ d h => inPhase_eq_next (State.setReliable d) h

/-! ## Codes -/

/-- An accepted nibble is the sync or the commit nibble (R73). -/
theorem decodeNibble_cases {n : Byte} {i : Instr} (h : decodeNibble n = .ok i) :
    (n = 0x03 ∧ i = .rawNibbleSync) ∨ (n = 0x02 ∧ i = .rawNibbleCommit) := by
  unfold decodeNibble at h
  split at h
  · cases h
    exact .inl ⟨‹_›, rfl⟩
  · split at h
    · cases h
      exact .inr ⟨‹_›, rfl⟩
    · cases h

/-- Settles O54: each format's decoder accepts only the words that its rows are encoded as. -/
theorem acceptedCodeIsCanonical : Obligations.AcceptedCodeIsCanonical := by
  intro c i h
  refine ⟨?_, wellFormed_of_wireItem (decode_ok_isHost h)⟩
  obtain ⟨f, w⟩ := c
  cases f with
  | cmd => exact encode_of_decode_cmd h
  | data =>
    cases h
    rfl
  | nib =>
    obtain ⟨rfl, rfl⟩ | ⟨rfl, rfl⟩ := decodeNibble_cases h
    · rfl
    · rfl
  | host => cases h

/-- A byte is a command when decoding accepts it. -/
theorem exists_decode_cmd_iff (b : Byte) : (∃ i, decode ⟨.cmd, b⟩ = .ok i) ↔ (accepted (decodeCommand b)).isSome = true := by
  refine ⟨fun ⟨i, hi⟩ => ?_, fun h => ?_⟩
  · rw [show decodeCommand b = .ok i from hi]
    rfl
  · obtain ⟨i, hi⟩ := Option.isSome_iff_exists.1 h
    exact ⟨i, accepted_eq_some hi⟩

/-- Settles O56, over the 256 bytes. -/
theorem commandRowsAreDisjointAndComplete : Obligations.CommandRowsAreDisjointAndComplete := by
  intro b
  rw [exists_decode_cmd_iff]
  revert b
  decide

end Sys2Proof.Machine
